-- ==== Sys2Proof/Word.lean ====
section
/-! DEFINITION. The two machine words of RSAB: a 32-bit bus word, which is also one limb of an operand
register and one command word (spec R10, R21, R90), and a byte lane of it (R63). -/

namespace Sys2Proof

/-- A 32-bit bus word, limb or command word. -/
abbrev Word := BitVec 32

/-- One byte lane of a bus word. -/
abbrev Byte := BitVec 8

end Sys2Proof
end

