-- ==== Sys2Proof/Syntax.lean ====
section
/-! DEFINITION. The commands of RSAB: one constructor per row of the opcode map (spec 30_encoding.md R94). -/

namespace Sys2Proof

/-- The index of an operand register R0..R7 (spec R20, R92). -/
abbrev Reg := Fin 8

/-- A command. Operands stand in the assembler's order RD, RA, RB, RM, IMM8 (R98), only those the command uses. -/
inductive Instr where
  /-- `NOP` (R200). -/
  | nop
  /-- `MOV rd, ra` (R201). -/
  | mov (rd ra : Reg)
  /-- `LDI rd, #imm` (R202). -/
  | ldi (rd : Reg) (imm : BitVec 8)
  /-- `MULLO rd, ra, rb` (R160). -/
  | mullo (rd ra rb : Reg)
  /-- `MULHI rd, ra, rb` (R161). -/
  | mulhi (rd ra rb : Reg)
  /-- `MODMUL rd, ra, rb, rm` (R162). -/
  | modmul (rd ra rb rm : Reg)
  /-- `MODEXP rd, ra, rb, rm` (R181). -/
  | modexp (rd ra rb rm : Reg)
  /-- `CRYPT rd, ra, rb, rm` (R182). -/
  | crypt (rd ra rb rm : Reg)
  /-- `GCD rd, ra, rb` (R140). -/
  | gcd (rd ra rb : Reg)
  /-- `MODINV rd, ra, rm` (R142). -/
  | modinv (rd ra rm : Reg)
  /-- `MRTEST ra, rb, #k` (R120). -/
  | mrtest (ra rb : Reg) (k : BitVec 8)
  deriving DecidableEq, Repr

end Sys2Proof
end

