-- ==== Sys2Proof/WellFormed.lean ====
section
/-! DEFINITION. Which commands have an encoding. A register operand is below 8 by its type (spec R92); the one further
check is the MRTEST round count, 1 to 255 (R93, R120). -/

namespace Sys2Proof

/-- A command that some word encodes: an MRTEST has K != 0 (R93, R97). -/
def Instr.wellFormed : Instr → Bool
  | .nop => true
  | .mov _ _ => true
  | .ldi _ _ => true
  | .mullo _ _ _ => true
  | .mulhi _ _ _ => true
  | .modmul _ _ _ _ => true
  | .modexp _ _ _ _ => true
  | .crypt _ _ _ _ => true
  | .gcd _ _ _ => true
  | .modinv _ _ _ => true
  | .mrtest _ _ k => k != 0

end Sys2Proof
end

