-- ==== Sys2Proof/Decode.lean ====
section
/-! DEFINITION. The command word: its fields (spec 30_encoding.md R91), the opcode map (R94), the decoder, total on every
32-bit word (R97), and the encoder (R98). -/

namespace Sys2Proof

/-! ### Fields of the command word (R91) -/

/-- OP, bits 7:0. -/
def opField (w : Word) : BitVec 8 := w.extractLsb' 0 8
/-- RD, bits 11:8. -/
def rdField (w : Word) : BitVec 4 := w.extractLsb' 8 4
/-- RA, bits 15:12. -/
def raField (w : Word) : BitVec 4 := w.extractLsb' 12 4
/-- RB, bits 19:16. -/
def rbField (w : Word) : BitVec 4 := w.extractLsb' 16 4
/-- RM, bits 23:20. -/
def rmField (w : Word) : BitVec 4 := w.extractLsb' 20 4
/-- IMM8, bits 31:24. -/
def immField (w : Word) : BitVec 8 := w.extractLsb' 24 8

/-- The register a four-bit field names. Bit 3 of a field in use is 0 in every legal word (R92), so this is its value. -/
def fieldReg (f : BitVec 4) : Reg := Fin.ofNat 8 f.toNat

/-! ### The opcode map (R94) -/

/-- The eleven mnemonics of the opcode map. -/
inductive Mnemonic where
  | nop | mov | ldi | mullo | mulhi | modmul | modexp | crypt | gcd | modinv | mrtest
  deriving DecidableEq, Repr

/-- One row of R94: `pattern` is the table's "match". -/
structure OpcodeRow where
  mnemonic : Mnemonic
  pattern : Word
  mask : Word
  deriving DecidableEq, Repr

/-- The match and mask table of R94, row by row. -/
def opcodeTable : List OpcodeRow := [
  ⟨.nop,    0x00000000, 0xFFFFFFFF⟩,
  ⟨.mov,    0x00000001, 0xFFFF88FF⟩,
  ⟨.ldi,    0x00000002, 0x00FFF8FF⟩,
  ⟨.mullo,  0x00000008, 0xFFF888FF⟩,
  ⟨.mulhi,  0x00000009, 0xFFF888FF⟩,
  ⟨.modmul, 0x0000000A, 0xFF8888FF⟩,
  ⟨.modexp, 0x00000010, 0xFF8888FF⟩,
  ⟨.crypt,  0x00000011, 0xFF8888FF⟩,
  ⟨.gcd,    0x00000018, 0xFFF888FF⟩,
  ⟨.modinv, 0x00000019, 0xFF8F88FF⟩,
  ⟨.mrtest, 0x00000020, 0x00F88FFF⟩]

/-- R97's test of one row: `(w AND mask) == match` and the extra condition, which only MRTEST has. -/
def matchesRow (w : Word) (r : OpcodeRow) : Bool :=
  w &&& r.mask == r.pattern && (r.mnemonic != .mrtest || immField w != 0)

/-! ### Decoding (R97) -/

/-- Why a word is illegal, in R302's words. The block does not record the reason: every one ends in ILLEGAL_CMD. -/
inductive IllegalReason where
  /-- A reserved opcode (R96). -/
  | reservedOpcode
  /-- A register field in use that holds 8 to 15 (R92). -/
  | registerIndex
  /-- A non-zero unused field (R95). -/
  | unusedField
  /-- An MRTEST with IMM8 = 0 (R93). -/
  | zeroRounds
  deriving DecidableEq, Repr

/-- What a word decodes to. -/
inductive Decoded where
  | instr (i : Instr)
  | illegal (r : IllegalReason)
  deriving DecidableEq, Repr

/-- The command of a row, with its operands taken from the word's fields (R94, R97). -/
def rowInstr (m : Mnemonic) (w : Word) : Instr :=
  let rd := fieldReg (rdField w)
  let ra := fieldReg (raField w)
  let rb := fieldReg (rbField w)
  let rm := fieldReg (rmField w)
  match m with
  | .nop => .nop
  | .mov => .mov rd ra
  | .ldi => .ldi rd (immField w)
  | .mullo => .mullo rd ra rb
  | .mulhi => .mulhi rd ra rb
  | .modmul => .modmul rd ra rb rm
  | .modexp => .modexp rd ra rb rm
  | .crypt => .crypt rd ra rb rm
  | .gcd => .gcd rd ra rb
  | .modinv => .modinv rd ra rm
  | .mrtest => .mrtest ra rb (immField w)

/-- A field is a register field in use exactly when its mask nibble is 8 (R94's note on masks); it is out of range when
it is 8 or more. -/
def badIndex (mask field : BitVec 4) : Bool := mask == 8 && 8 ≤ field.toNat

/-- The reason a word that matches no row is illegal. DESIGN CHOICE: where several hold, the first in this order is named
(log 19, safe: nothing of the machine depends on it). -/
def illegalReason (w : Word) : IllegalReason :=
  match opcodeTable.find? (fun r => opField r.pattern == opField w) with
  | none => .reservedOpcode
  | some r =>
    if badIndex (rdField r.mask) (rdField w) || badIndex (raField r.mask) (raField w) ||
        badIndex (rbField r.mask) (rbField w) || badIndex (rmField r.mask) (rmField w) then .registerIndex
    else if w &&& r.mask != r.pattern then .unusedField
    else .zeroRounds

/-- R97's decode function. -/
def decode (w : Word) : Decoded :=
  match opcodeTable.find? (matchesRow w) with
  | some r => .instr (rowInstr r.mnemonic w)
  | none => .illegal (illegalReason w)

/-! ### Encoding (R91, R98) -/

/-- The word with the given fields, laid out as R91 draws it. -/
def packWord (op : BitVec 8) (rd ra rb rm : BitVec 4) (imm : BitVec 8) : Word :=
  imm ++ rm ++ rb ++ ra ++ rd ++ op

/-- The four-bit field that names a register. -/
def regBits (r : Reg) : BitVec 4 := BitVec.ofNat 4 r.val

/-- The word of a command (R98's table of forms). -/
def encode : Instr → Word
  | .nop => packWord 0x00 0 0 0 0 0
  | .mov rd ra => packWord 0x01 (regBits rd) (regBits ra) 0 0 0
  | .ldi rd imm => packWord 0x02 (regBits rd) 0 0 0 imm
  | .mullo rd ra rb => packWord 0x08 (regBits rd) (regBits ra) (regBits rb) 0 0
  | .mulhi rd ra rb => packWord 0x09 (regBits rd) (regBits ra) (regBits rb) 0 0
  | .modmul rd ra rb rm => packWord 0x0A (regBits rd) (regBits ra) (regBits rb) (regBits rm) 0
  | .modexp rd ra rb rm => packWord 0x10 (regBits rd) (regBits ra) (regBits rb) (regBits rm) 0
  | .crypt rd ra rb rm => packWord 0x11 (regBits rd) (regBits ra) (regBits rb) (regBits rm) 0
  | .gcd rd ra rb => packWord 0x18 (regBits rd) (regBits ra) (regBits rb) 0 0
  | .modinv rd ra rm => packWord 0x19 (regBits rd) (regBits ra) 0 (regBits rm) 0
  | .mrtest ra rb k => packWord 0x20 0 (regBits ra) (regBits rb) 0 k

/-- The command word whose bits are `w`, of which the opcode table gives the lowest `nbits`; the bits above are 0. A
command is one 32-bit word delivered whole (R90), so bit k of the table is bit k of the word. -/
def tableWord (nbits w : Nat) : Word := BitVec.ofNat 32 (w % 2 ^ nbits)

/-- The instruction the decoder reads from an opcode-table word, none where it refuses. -/
def decodeTableWord (nbits w : Nat) : Option Instr :=
  match decode (tableWord nbits w) with
  | .instr i => some i
  | .illegal _ => none

end Sys2Proof
end

