-- ==== Sys2Proof/Config.lean ====
section
/-! DEFINITION. The parameters an implementation of RSAB fixes (spec 00_scope.md R5 to R8): the operand width, given
by the number of limbs, and the bus address of the window. They are data, carried by State and written by no step, so
that every claim over all states is a claim over all configurations (log 4). The spec's other open parameters are the
entropy answers, which stand in State (log 5), and IRQ routing, which is outside the block (R310). -/

namespace Sys2Proof

/-- The parameters of one RSAB: NLIMB (R6) and BASE (R8). -/
structure Config where
  nlimb : Nat
  base : Nat
  deriving DecidableEq, Repr

/-- NBITS = 32 * NLIMB (R5, R6). -/
def Config.nbits (c : Config) : Nat := 32 * c.nlimb

/-- What R5 and R8 ask of the parameters: 64 <= NBITS <= 4096 and BASE a multiple of 0x2000. -/
abbrev Config.Legal (c : Config) : Prop := 2 ≤ c.nlimb ∧ c.nlimb ≤ 128 ∧ c.base % 0x2000 = 0

/-- The reference configuration, NBITS = 2048 (R5). DESIGN CHOICE: BASE is open in the spec (D10); it is 0 here (log 4,
unsafe). -/
def Config.reference : Config := { nlimb := 64, base := 0 }

end Sys2Proof
end

