-- ==== Sys2Proof/Machine/State.lean ====
section
/-! DEFINITION. The state of RSAB as plain data (spec 10_state.md), the reasons a step can stop, and the state right after
power-on reset (R44, R350). What software reads but the block does not store (BUSY, IRQ, ID, CFG, the STATUS and CTRL words) is
computed in Machine/Ops.lean and Machine/Flags.lean. -/

namespace Sys2Proof.Machine

/-- One operand register: its value, an unsigned integer below 2^NBITS (R20), and for each limb, limb 0 first, whether
it has been written since power-on reset (R23). -/
structure OpReg where
  value : Nat
  written : List Bool
  deriving DecidableEq, Repr

/-- The operand register file R0..R7 (R20). -/
structure RegFile where
  r0 : OpReg
  r1 : OpReg
  r2 : OpReg
  r3 : OpReg
  r4 : OpReg
  r5 : OpReg
  r6 : OpReg
  r7 : OpReg
  deriving DecidableEq, Repr

/-- The command in flight: the accepted word and CTRL.DETB at its acceptance (R24). -/
structure InFlight where
  word : Word
  detb : Bool
  deriving DecidableEq, Repr

/-- STATUS.ERRCODE: the codes 0 to 4 of R301. Codes 5 to 15 are never produced, so they have no constructor. -/
inductive ErrCode where
  | noError
  | illegalCmd
  | badModulus
  | invalidRange
  | badBase
  deriving DecidableEq, Repr

/-- What can happen to the block next, in the order it happens (R45, R48, R69, R317, R350). -/
inductive Event where
  /-- The engine is given its turn: it takes its completion step if a command is in flight and can complete (R48). -/
  | engine
  /-- A host read of `bits` bits at bus address `addr` (R60, R64, R65). -/
  | read (addr bits : Nat)
  /-- A host write of `bits` bits at bus address `addr`; only a 32-bit write has an effect (R60, R64, R65). -/
  | write (addr bits : Nat) (data : Word)
  /-- The power-on reset input is asserted (true) or released (false) (R350). -/
  | powerOn (asserted : Bool)
  deriving DecidableEq, Repr

/-- The block's answer to a bus access (R60, R65). -/
inductive BusResponse where
  /-- No access answered since power-on reset. -/
  | idle
  /-- A read returned this word. -/
  | readData (w : Word)
  /-- A write was taken. -/
  | writeDone
  /-- Bus error at a read, with the word the read returns beside it (R65). -/
  | readError (w : Word)
  /-- Bus error at a write (R65). -/
  | writeError
  deriving DecidableEq, Repr

/-- The state of the block. `cfg` are its parameters, which no step writes; `events`, `entropy` and `response` are the
model's own fields: the inputs still to come and the latest output on the bus (logs 5, 7, 8). -/
structure State where
  /-- NLIMB and BASE (R5, R6, R8; log 4). -/
  cfg : Config
  /-- R0..R7 with their written marks (R20, R23). -/
  regs : RegFile
  /-- INFLIGHT (R24). STATUS.BUSY is INFLIGHT != none (R32). -/
  inflight : Option InFlight
  /-- CTRL.IE (R28). -/
  ie : Bool
  /-- CTRL.DETB (R28). -/
  detb : Bool
  /-- STATUS.DONE (R33). -/
  done : Bool
  /-- STATUS.ERR (R34). -/
  err : Bool
  /-- STATUS.ERRCODE (R34, R301). -/
  errcode : ErrCode
  /-- STATUS.CMDOVR (R35). -/
  cmdovr : Bool
  /-- STATUS.BUSYACC (R36). -/
  busyacc : Bool
  /-- STATUS.PRIME (R37). -/
  prime : Bool
  /-- STATUS.NOINV (R38). -/
  noinv : Bool
  /-- ERRCMD (R40). -/
  errcmd : Word
  /-- The level of the power-on reset input (R350). -/
  porAsserted : Bool
  /-- The external events to come, in order (log 7). -/
  events : List Event
  /-- The answers the entropy source offers, oldest first: free values (R124; log 5). -/
  entropy : List Nat
  /-- The answer to the latest bus access (log 8). -/
  response : BusResponse
  deriving DecidableEq, Repr

/-- Why a step faults. -/
inductive Fault where
  /-- Raised by a bus access (`busAccess`) whose address is outside the block's 8 KiB window: R61 says what happens there
  is not part of the spec. Safe: the model stops where the platform goes on. -/
  | outsideWindow
  deriving DecidableEq, Repr

/-- Why a step is refused. -/
inductive Refusal where
  /-- Raised by an arm of exec whose instruction has no meaning yet. Safe. No arm uses it: every command is modelled. -/
  | notModelled (mnemonic : String)
  /-- Raised by a bus access (`busAccess`) while the power-on reset input is asserted: R350 puts it outside the spec, and
  93_implementation_defined.md says to refuse it. Safe. -/
  | busDuringReset
  deriving DecidableEq, Repr

/-- A register nothing has written since power-on reset: every mark unset (R23, R44). DESIGN CHOICE: its value, which the
spec leaves unspecified, is 0 (log 1, unsafe). -/
def OpReg.unwritten (nlimb : Nat) : OpReg := { value := 0, written := List.replicate nlimb false }

/-- A register file that holds the same register eight times. -/
def RegFile.all (r : OpReg) : RegFile := ⟨r, r, r, r, r, r, r, r⟩

/-- The state right after the release of power-on reset, in the reference configuration (R44, R350). -/
def State.reset : State where
  cfg := Config.reference
  regs := RegFile.all (OpReg.unwritten Config.reference.nlimb)
  inflight := none
  ie := false
  detb := false
  done := false
  err := false
  errcode := .noError
  cmdovr := false
  busyacc := false
  prime := false
  noinv := false
  errcmd := 0
  porAsserted := false
  events := []
  entropy := []
  response := .idle

end Sys2Proof.Machine
end

