-- ==== Sys2Proof/Machine/Ops.lean ====
section
/-! DEFINITION. The named operations over the state: the register file and its limbs (spec R20 to R23), the command
lifecycle (acceptance R46, successful completion R49, error completion R50 with its acknowledgement R31 and R313), soft
reset (R352) and power-on reset (R350). -/

namespace Sys2Proof.Machine

/-! ### Operand registers -/

/-- The register file's entry i. -/
def RegFile.get (f : RegFile) (i : Reg) : OpReg :=
  match i with
  | 0 => f.r0
  | 1 => f.r1
  | 2 => f.r2
  | 3 => f.r3
  | 4 => f.r4
  | 5 => f.r5
  | 6 => f.r6
  | 7 => f.r7

/-- The register file with entry i replaced. -/
def RegFile.set (f : RegFile) (i : Reg) (r : OpReg) : RegFile :=
  match i with
  | 0 => { f with r0 := r }
  | 1 => { f with r1 := r }
  | 2 => { f with r2 := r }
  | 3 => { f with r3 := r }
  | 4 => { f with r4 := r }
  | 5 => { f with r5 := r }
  | 6 => { f with r6 := r }
  | 7 => { f with r7 := r }

/-- R12's `R[i]`: the value of operand register i. -/
def State.reg (s : State) (i : Reg) : Nat := (s.regs.get i).value

/-- The written marks of operand register i, limb 0 first (R23). -/
def State.marks (s : State) (i : Reg) : List Bool := (s.regs.get i).written

/-- Whether limb j of register i has been written since power-on reset (R23). -/
def State.limbWritten (s : State) (i : Reg) (j : Nat) : Bool := (s.marks i).getD j false

/-- Whether every limb of register i has been written since power-on reset (R23). -/
def State.regWritten (s : State) (i : Reg) : Bool := (s.marks i).all id

/-- R12's `R[i] <- v`, for v below 2^NBITS: a command's result write, which marks all NLIMB limbs written (R23). -/
def State.writeReg (s : State) (i : Reg) (v : Nat) : State :=
  { s with regs := s.regs.set i { value := v, written := List.replicate s.cfg.nlimb true } }

/-- Limb j of a register value, its bits 32j+31 to 32j (R21). -/
def limbOf (x j : Nat) : Word := BitVec.ofNat 32 (x / 2 ^ (32 * j))

/-- A register value with limb j replaced and the other limbs unchanged (R62). -/
def withLimb (x j : Nat) (v : Word) : Nat :=
  x / 2 ^ (32 * (j + 1)) * 2 ^ (32 * (j + 1)) + v.toNat * 2 ^ (32 * j) + x % 2 ^ (32 * j)

/-- The host's write of limb j of register i, which marks that one limb written (R23, R62). -/
def State.writeLimb (s : State) (i : Reg) (j : Nat) (v : Word) : State :=
  let r : OpReg := { value := withLimb (s.reg i) j v, written := (s.marks i).set j true }
  { s with regs := s.regs.set i r }

/-! ### The command in flight -/

/-- STATUS.BUSY: 1 exactly when a command is in flight (R32). -/
def State.busy (s : State) : Bool := s.inflight.isSome

/-- INFLIGHT.word. With no command in flight there is no word; 0 stands in, and no step from such a state uses it
(log 15, safe). -/
def State.inflightWord (s : State) : Word :=
  match s.inflight with
  | some f => f.word
  | none => 0

/-- INFLIGHT.detb, the base source captured at acceptance (R24, R356); false with no command in flight (log 15, safe). -/
def State.inflightDetb (s : State) : Bool :=
  match s.inflight with
  | some f => f.detb
  | none => false

/-- Acceptance of command word w while BUSY = 0 (R46). -/
def State.accept (s : State) (w : Word) : State :=
  { s with inflight := some { word := w, detb := s.detb }, done := false, err := false, errcode := .noError }

/-- `complete()`: successful completion, after the command's own writes (R49). -/
def State.complete (s : State) : State :=
  { s with inflight := none, done := true }

/-- `raise Error(code)`: error completion, the block's one exception (R50, R300). ERRCMD takes the failing word, STATUS
the code; there is no handler address, and no operand register is written. -/
def State.raiseError (s : State) (code : ErrCode) : State :=
  { s with errcmd := s.inflightWord, inflight := none, done := true, err := true, errcode := code }

/-- A host write to STATUS: write-one-to-clear of DONE, of ERR with ERRCODE, of CMDOVR and of BUSYACC (R31). With bits 1
and 2 set it is the acknowledgement that returns from an error completion (R313). -/
def State.writeStatus (s : State) (v : Word) : State :=
  { s with
    done := s.done && !v.getLsbD 1
    err := s.err && !v.getLsbD 2
    errcode := if v.getLsbD 2 then .noError else s.errcode
    cmdovr := s.cmdovr && !v.getLsbD 3
    busyacc := s.busyacc && !v.getLsbD 4 }

/-! ### Inputs and outputs -/

/-- The state once an event has been taken, with `rest` still to come (log 7). -/
def State.dequeue (s : State) (rest : List Event) : State := { s with events := rest }

/-- The state with this answer on the bus (log 8). -/
def State.answer (s : State) (r : BusResponse) : State := { s with response := r }

/-! ### Resets -/

/-- Soft reset: the command in flight is abandoned, CTRL, STATUS and ERRCMD go to 0, and the operand registers and
their marks stay (R352, R44). -/
def State.softReset (s : State) : State :=
  { s with
    inflight := none, ie := false, detb := false
    done := false, err := false, errcode := .noError, cmdovr := false, busyacc := false
    prime := false, noinv := false, errcmd := 0 }

/-- A level change of the power-on reset input. All state takes its power-on value both while the input is asserted and
when it is released (R350, R44; log 9); the parameters and the inputs still to come are not state of the block. -/
def State.powerOnReset (s : State) (asserted : Bool) : State :=
  { State.reset with
    cfg := s.cfg
    regs := RegFile.all (OpReg.unwritten s.cfg.nlimb)
    porAsserted := asserted
    events := s.events
    entropy := s.entropy }

end Sys2Proof.Machine
end

