-- ==== Sys2Proof/Machine/Flags.lean ====
section
/-! DEFINITION. The flags: the STATUS and CTRL words as software reads them (spec R28 to R30), the verdict flags PRIME and
NOINV (R37, R38), the IRQ output (R43) and the constant registers ID and CFG (R26, R27). -/

namespace Sys2Proof.Machine

/-- The four-bit value of an error code (R301). -/
def ErrCode.bits : ErrCode → BitVec 4
  | .noError => 0
  | .illegalCmd => 1
  | .badModulus => 2
  | .invalidRange => 3
  | .badBase => 4

/-- One bit as a bit vector. -/
def bit (b : Bool) : BitVec 1 := BitVec.ofBool b

/-- The STATUS register (R30): ERRCODE in bits 19:16, NOINV 9, PRIME 8, BUSYACC 4, CMDOVR 3, ERR 2, DONE 1, BUSY 0;
reserved bits read 0. -/
def State.statusWord (s : State) : Word :=
  (0 : BitVec 12) ++ s.errcode.bits ++ (0 : BitVec 6) ++ bit s.noinv ++ bit s.prime ++ (0 : BitVec 3) ++
    bit s.busyacc ++ bit s.cmdovr ++ bit s.err ++ bit s.done ++ bit s.busy

/-- The CTRL register as read (R29): DETB in bit 1, IE in bit 0, the rest 0 (SRST reads 0). -/
def State.ctrlWord (s : State) : Word := (0 : BitVec 30) ++ bit s.detb ++ bit s.ie

/-- The IRQ output, CTRL.IE AND STATUS.DONE (R43, R310). -/
def State.irq (s : State) : Bool := s.ie && s.done

/-- The write of STATUS.PRIME, which only MRTEST makes (R37, R127). -/
def State.setPrime (s : State) (b : Bool) : State := { s with prime := b }

/-- The write of STATUS.NOINV, which only MODINV makes (R38). -/
def State.setNoinv (s : State) (b : Bool) : State := { s with noinv := b }

/-- ID, "RSA1" (R26). -/
def idValue : Word := 0x52534131

/-- CFG: NREG = 8 in bits 19:16, NLIMB in bits 15:0 (R27). -/
def cfgWord (c : Config) : Word := (0 : BitVec 12) ++ (8 : BitVec 4) ++ BitVec.ofNat 16 c.nlimb

end Sys2Proof.Machine
end

