-- ==== Sys2Proof/Machine/Bus.lean ====
section
/-! DEFINITION. The host's accesses to the window (spec 20_memory.md): the control registers (R25, R61), the operand window
(R62, R68), and the bus port's answers (R60, R65). -/

namespace Sys2Proof.Machine

/-- The size of the window in bytes (R60). -/
def windowBytes : Nat := 0x2000

/-- Whether an offset is in the operand window (R61), for an offset inside the block's window. -/
def inOperandWindow (off : Nat) : Bool := 0x1000 ≤ off

/-- The register of an operand window offset: (off - 0x1000) / 0x200 (R62). -/
def windowReg (off : Nat) : Reg := Fin.ofNat 8 ((off - 0x1000) / 0x200)

/-- The limb index of an operand window offset: ((off - 0x1000) mod 0x200) / 4 (R62). -/
def windowLimb (off : Nat) : Nat := (off - 0x1000) % 0x200 / 4

/-- What a read of a control register offset returns (R25): CMD and the reserved offsets read 0 (R39, R41). -/
def State.controlRead (s : State) (off : Nat) : Word :=
  if off = 0x000 then idValue
  else if off = 0x004 then cfgWord s.cfg
  else if off = 0x008 then s.ctrlWord
  else if off = 0x00C then s.statusWord
  else if off = 0x014 then s.errcmd
  else 0

/-- What a read of an operand window offset returns while BUSY = 0: the limb, or 0 above limb NLIMB - 1 (R62). -/
def State.windowRead (s : State) (off : Nat) : Word :=
  if windowLimb off < s.cfg.nlimb then limbOf (s.reg (windowReg off)) (windowLimb off) else 0

/-- `MemRead(off, 4)`: the word read and the state after. Only a window read while BUSY = 1 changes it (R66, R68). -/
def State.hostRead (s : State) (off : Nat) : State × Word :=
  if inOperandWindow off then
    if s.busy then ({ s with busyacc := true }, 0) else (s, s.windowRead off)
  else (s, s.controlRead off)

/-- A write to CTRL: soft reset with bit 31 set, else IE and DETB (R29). -/
def State.writeCtrl (s : State) (v : Word) : State :=
  if v.getLsbD 31 then s.softReset else { s with ie := v.getLsbD 0, detb := v.getLsbD 1 }

/-- A write to CMD: acceptance, or CMDOVR while BUSY = 1 (R39). -/
def State.writeCmd (s : State) (w : Word) : State :=
  if s.busy then { s with cmdovr := true } else s.accept w

/-- A write to a control register offset; writes elsewhere are ignored (R41). -/
def State.controlWrite (s : State) (off : Nat) (v : Word) : State :=
  if off = 0x008 then s.writeCtrl v
  else if off = 0x00C then s.writeStatus v
  else if off = 0x010 then s.writeCmd v
  else s

/-- A write to an operand window offset while BUSY = 0 (R62). -/
def State.windowWrite (s : State) (off : Nat) (v : Word) : State :=
  if windowLimb off < s.cfg.nlimb then s.writeLimb (windowReg off) (windowLimb off) v else s

/-- `MemWrite(off, 4, v)` (R66, R68). -/
def State.hostWrite (s : State) (off : Nat) (v : Word) : State :=
  if inOperandWindow off then
    if s.busy then { s with busyacc := true } else s.windowWrite off v
  else s.controlWrite off v

/-- The byte lane b of a bus word, bits 8b+7 to 8b (R63). -/
def byteLane (w : Word) (b : Nat) : Byte := w.extractLsb' (8 * b) 8

/-- Whether the block takes an access: aligned and 32 bits wide (R64). -/
def goodAccess (off bits : Nat) : Bool := off % 4 == 0 && bits == 32

/-- One bus access at a bus address (R60). Outside the window it is not the block's (R61, log 10); while power-on reset is
asserted it is outside the spec (R350, log 9); misaligned or not 32 bits wide it is answered with `error` and has no
effect (R65, R307, log 3). Otherwise `take` gives the state and the answer from the offset. -/
def busAccess (addr bits : Nat) (s : State) (error : BusResponse) (take : Nat → State × BusResponse) :
    Host.Outcome State Fault Refusal :=
  if addr < s.cfg.base ∨ s.cfg.base + windowBytes ≤ addr then .fault .outsideWindow
  else if s.porAsserted then .refused .busDuringReset
  else
    let off := addr - s.cfg.base
    if goodAccess off bits then
      .next ((take off).1.answer (take off).2)
    else .next (s.answer error)

/-- A bus read; one with a bus error returns 0 (R65). -/
def busRead (addr bits : Nat) (s : State) : Host.Outcome State Fault Refusal :=
  busAccess addr bits s (.readError 0) fun off => ((s.hostRead off).1, .readData (s.hostRead off).2)

/-- A bus write. -/
def busWrite (addr bits : Nat) (v : Word) (s : State) : Host.Outcome State Fault Refusal :=
  busAccess addr bits s .writeError fun off => (s.hostWrite off v, .writeDone)

end Sys2Proof.Machine
end

