-- ==== Sys2Proof/Machine/Arith.lean ====
section
/-! DEFINITION. The arithmetic of the four units, on unsigned integers (spec R10): Euclid's algorithm (R140), its extended
form (R143), modular exponentiation (R180), and the parts of a Miller-Rabin test (R121, R122). Each loop is structural on a
fuel argument that is large enough for it to end by its own test; Laws/Arith.lean proves what each computes. -/

namespace Sys2Proof.Machine

/-- R140's loop `while b != 0: (a, b) <- (b, a mod b)`. -/
def euclidLoop : Nat → Nat → Nat → Nat
  | 0, a, _ => a
  | fuel + 1, a, b => if b = 0 then a else euclidLoop fuel b (a % b)

/-- The greatest common divisor as R140 computes it. `b` falls at every turn, so b turns are enough. -/
def euclid (a b : Nat) : Nat := euclidLoop b a b

/-- R143's loop on (r0, r1) and (t0, t1), which ends with (r0, t0). -/
def extEuclidLoop : Nat → Nat → Nat → Int → Int → Nat × Int
  | 0, r0, _, t0, _ => (r0, t0)
  | fuel + 1, r0, r1, t0, t1 =>
    if r1 = 0 then (r0, t0) else extEuclidLoop fuel r1 (r0 % r1) t1 (t0 - (r0 / r1 : Nat) * t1)

/-- The inverse of a modulo m in [0, m), for m >= 1, or none when gcd(a, m) != 1 (R142), computed as R143 does. -/
def modInverse (a m : Nat) : Option Nat :=
  let gt := extEuclidLoop (a % m) m (a % m) 0 1
  if gt.1 = 1 then some (gt.2 % m).toNat else none

/-- Square and multiply: multiplies `acc` by `b ^ e` modulo m, bit 0 of the exponent first. -/
def modExpLoop : Nat → Nat → Nat → Nat → Nat → Nat
  | 0, _, _, _, acc => acc
  | fuel + 1, b, e, m, acc =>
    if e = 0 then acc
    else modExpLoop fuel (b * b % m) (e / 2) m (if e % 2 = 1 then acc * b % m else acc)

/-- ModExp(a, e, m) of R180, the value (a ^ e) mod m. How the engine reduces is not visible (R183). The exponent is
halved at every turn, so e turns are enough. -/
def modExp (a e m : Nat) : Nat := modExpLoop e (a % m) e m (1 % m)

/-- R121's loop `while d mod 2 == 0: d <- d / 2; r <- r + 1`. -/
def splitLoop : Nat → Nat → Nat → Nat × Nat
  | 0, r, d => (r, d)
  | fuel + 1, r, d => if d % 2 = 0 then splitLoop fuel (r + 1) (d / 2) else (r, d)

/-- split(n) of R121: n - 1 = 2 ^ r * d with d odd, as (r, d). -/
def split (n : Nat) : Nat × Nat := splitLoop n 0 (n - 1)

/-- R122's `repeat` loop: squares x up to the given number of times and looks for n - 1. -/
def squareLoop (n : Nat) : Nat → Nat → Bool
  | 0, _ => false
  | k + 1, x =>
    let y := x * x % n
    if y = n - 1 then true else squareLoop n k y

/-- round(n, r, d, a) of R122: whether base a accepts n. -/
def mrRound (n r d a : Nat) : Bool :=
  let x := modExp a d n
  if x = 1 ∨ x = n - 1 then true else squareLoop n (r - 1) x

/-- How a run of rounds ends. -/
inductive RoundsResult where
  /-- The verdict, after using this many bases (R126). -/
  | verdict (prime : Bool) (used : Nat)
  /-- A round had no base to run with (R124: the entropy source does not answer). -/
  | waiting
  deriving DecidableEq, Repr

/-- R120's loop over the rounds, with the early exit of R126: the rounds that remain, and the bases they will use, in
order. `used` counts the bases used before. -/
def runRounds (n r d : Nat) : Nat → List Nat → Nat → RoundsResult
  | 0, _, used => .verdict true used
  | _ + 1, [], _ => .waiting
  | k + 1, a :: as, used =>
    if mrRound n r d a then runRounds n r d k as (used + 1) else .verdict false (used + 1)

/-- The base an entropy answer stands for: any answer gives a base in [2, n-2], and every base there is given by some
answer (R124, for n >= 5; log 5). -/
def entropyBase (n x : Nat) : Nat := 2 + x % (n - 3)

end Sys2Proof.Machine
end

