-- ==== Sys2Proof/Machine/Operands.lean ====
section
/-! DEFINITION. The operand forms of a command (spec R92, R93): a register, the zero-extended IMM8, the odd modulus the
Montgomery units ask for (R183, R303), and the bases of an MRTEST (R123 to R125). -/

namespace Sys2Proof.Machine

/-- zext_NBITS(IMM8) (R93). -/
def zextImm (imm : BitVec 8) : Nat := imm.toNat

/-- Whether the Montgomery units take m as modulus: m is odd (R162, R181, R182, R183). -/
def oddModulus (m : Nat) : Bool := m % 2 == 1

/-- The register of deterministic round i: (RB + i) mod 8 (R125). -/
def baseReg (rb : Reg) (i : Nat) : Reg := Fin.ofNat 8 (rb.val + i)

/-- The bases of the first k deterministic rounds, in round order (R125). -/
def State.detBases (s : State) (rb : Reg) (k : Nat) : List Nat :=
  (List.range k).map fun i => s.reg (baseReg rb i)

/-- Whether a lies in [2, n-2] (R123), for n >= 5. -/
def baseInRange (n a : Nat) : Bool := 2 ≤ a && a ≤ n - 2

/-- The up-front check of the base registers that K rounds will read: rounds 0 to min(K, 8) - 1 (R125). -/
def State.detBasesOk (s : State) (n : Nat) (rb : Reg) (k : Nat) : Bool :=
  (s.detBases rb (min k 8)).all (baseInRange n)

/-- The bases the entropy source offers for candidate n, oldest answer first (R124; log 5). -/
def State.entropyBases (s : State) (n : Nat) : List Nat := s.entropy.map (entropyBase n)

end Sys2Proof.Machine
end

