-- ==== Sys2Proof/Machine/Euclid.lean ====
section
/-! DEFINITION. The extended Euclidean gcd solver: GCD and MODINV (spec 41_euclid.md). -/

namespace Sys2Proof.Machine

/-- GCD rd, ra, rb (R140). -/
def execGcd (rd ra rb : Reg) (s : State) : Host.Outcome State Fault Refusal :=
  .next (s.writeReg rd (euclid (s.reg ra) (s.reg rb))).complete

/-- MODINV rd, ra, rm (R142): "no inverse" is a successful completion that writes no register. -/
def execModinv (rd ra rm : Reg) (s : State) : Host.Outcome State Fault Refusal :=
  let m := s.reg rm
  if m = 0 then .next ((s.setNoinv false).raiseError .badModulus)
  else match modInverse (s.reg ra) m with
    | none => .next (s.setNoinv true).complete
    | some t => .next ((s.writeReg rd t).setNoinv false).complete

end Sys2Proof.Machine
end

