-- ==== Sys2Proof/Machine/Exponent.lean ====
section
/-! DEFINITION. The modular exponentiation engine: MODEXP and CRYPT (spec 43_modexp.md). -/

namespace Sys2Proof.Machine

/-- MODEXP rd, ra, rb, rm (R181): no range check of the base. -/
def execModexp (rd ra rb rm : Reg) (s : State) : Host.Outcome State Fault Refusal :=
  let m := s.reg rm
  if oddModulus m then .next (s.writeReg rd (modExp (s.reg ra) (s.reg rb) m)).complete
  else .next (s.raiseError .badModulus)

/-- CRYPT rd, ra, rb, rm (R182): BAD_MODULUS first, then INVALID_RANGE (R309). -/
def execCrypt (rd ra rb rm : Reg) (s : State) : Host.Outcome State Fault Refusal :=
  let n := s.reg rm
  if oddModulus n then
    if s.reg ra < n then .next (s.writeReg rd (modExp (s.reg ra) (s.reg rb) n)).complete
    else .next (s.raiseError .invalidRange)
  else .next (s.raiseError .badModulus)

end Sys2Proof.Machine
end

