-- ==== Sys2Proof/Machine/Multiply.lean ====
section
/-! DEFINITION. The big integer multiplier: MULLO, MULHI and MODMUL (spec 42_multiply.md). -/

namespace Sys2Proof.Machine

/-- MULLO rd, ra, rb (R160): the low NBITS bits of the product. -/
def execMullo (rd ra rb : Reg) (s : State) : Host.Outcome State Fault Refusal :=
  .next (s.writeReg rd (s.reg ra * s.reg rb % 2 ^ s.cfg.nbits)).complete

/-- MULHI rd, ra, rb (R161): the high NBITS bits of the product. -/
def execMulhi (rd ra rb : Reg) (s : State) : Host.Outcome State Fault Refusal :=
  .next (s.writeReg rd (s.reg ra * s.reg rb / 2 ^ s.cfg.nbits)).complete

/-- MODMUL rd, ra, rb, rm (R162). -/
def execModmul (rd ra rb rm : Reg) (s : State) : Host.Outcome State Fault Refusal :=
  let m := s.reg rm
  if oddModulus m then .next (s.writeReg rd (s.reg ra * s.reg rb % m)).complete
  else .next (s.raiseError .badModulus)

end Sys2Proof.Machine
end

