-- ==== Sys2Proof/Machine/Primality.lean ====
section
/-! DEFINITION. The Miller-Rabin primality tester: MRTEST (spec 40_primality.md). -/

namespace Sys2Proof.Machine

/-- A successful MRTEST completion (R127): the verdict goes to PRIME, and the entropy answers the rounds used are gone. -/
def State.completeTest (s : State) (prime : Bool) (drawn : Nat) : State :=
  State.complete (State.setPrime { s with entropy := s.entropy.drop drawn } prime)

/-- The rounds in deterministic mode, on bases R[(RB + i) mod 8] that are checked before the first round (R125). -/
def runDeterministic (n : Nat) (rb : Reg) (k : Nat) (s : State) : Host.Outcome State Fault Refusal :=
  if s.detBasesOk n rb k then
    match runRounds n (split n).1 (split n).2 k (s.detBases rb k) 0 with
    | .verdict v _ => .next (s.completeTest v 0)
    | .waiting => .next s
  else .next ((s.setPrime false).raiseError .badBase)

/-- The rounds in entropy mode, each on a base the source offers. Where it offers none that a round needs, the
completion step is not taken and the command stays in flight (R124, R360; log 6). -/
def runEntropy (n k : Nat) (s : State) : Host.Outcome State Fault Refusal :=
  match runRounds n (split n).1 (split n).2 k (s.entropyBases n) 0 with
  | .verdict v used => .next (s.completeTest v used)
  | .waiting => .next s

/-- MRTEST ra, rb, #k (R120). K = 0 has no legal word; an MRTEST built with it is ILLEGAL_CMD, as its word is (R302,
log 16). -/
def execMrtest (ra rb : Reg) (k : BitVec 8) (s : State) : Host.Outcome State Fault Refusal :=
  let n := s.reg ra
  if k = 0 then .next (s.raiseError .illegalCmd)
  else if n ≤ 1 then .next (s.completeTest false 0)
  else if n = 2 ∨ n = 3 then .next (s.completeTest true 0)
  else if n % 2 = 0 then .next (s.completeTest false 0)
  else if s.inflightDetb then runDeterministic n rb k.toNat s
  else runEntropy n k.toNat s

end Sys2Proof.Machine
end

