-- ==== Sys2Proof/Machine/Utility.lean ====
section
/-! DEFINITION. The utility commands NOP, MOV and LDI (spec 44_utility.md). -/

namespace Sys2Proof.Machine

/-- NOP (R200). -/
def execNop (s : State) : Host.Outcome State Fault Refusal := .next s.complete

/-- MOV rd, ra (R201). -/
def execMov (rd ra : Reg) (s : State) : Host.Outcome State Fault Refusal :=
  .next (s.writeReg rd (s.reg ra)).complete

/-- LDI rd, #imm (R202). -/
def execLdi (rd : Reg) (imm : BitVec 8) (s : State) : Host.Outcome State Fault Refusal :=
  .next (s.writeReg rd (zextImm imm)).complete

end Sys2Proof.Machine
end

