-- ==== Sys2Proof/Machine/Dispatch.lean ====
section
/-! DEFINITION. The dispatch of a decoded command to its rule (spec R47), one arm per command. -/

namespace Sys2Proof.Machine

def exec (i : Instr) (s : State) : Host.Outcome State Fault Refusal :=
  match i with
  | .nop => Sys2Proof.Machine.execNop s
  | .mov rd ra => Sys2Proof.Machine.execMov rd ra s
  | .ldi rd imm => Sys2Proof.Machine.execLdi rd imm s
  | .mullo rd ra rb => Sys2Proof.Machine.execMullo rd ra rb s
  | .mulhi rd ra rb => Sys2Proof.Machine.execMulhi rd ra rb s
  | .modmul rd ra rb rm => Sys2Proof.Machine.execModmul rd ra rb rm s
  | .modexp rd ra rb rm => Sys2Proof.Machine.execModexp rd ra rb rm s
  | .crypt rd ra rb rm => Sys2Proof.Machine.execCrypt rd ra rb rm s
  | .gcd rd ra rb => Sys2Proof.Machine.execGcd rd ra rb s
  | .modinv rd ra rm => Sys2Proof.Machine.execModinv rd ra rm s
  | .mrtest ra rb k => Sys2Proof.Machine.execMrtest ra rb k s

end Sys2Proof.Machine
end

