-- ==== Sys2Proof/Machine/Engine.lean ====
section
/-! DEFINITION. The engine's turn (spec R47, R48) and the delivery of one external event (R45, R69, R350). -/

namespace Sys2Proof.Machine

/-- The engine's turn. With a command in flight it takes the completion step: it decodes the word and runs the rule of
its command, or ends in ILLEGAL_CMD (R47, R302). With none there is nothing to do (R359). -/
def engineStep (s : State) : Host.Outcome State Fault Refusal :=
  match s.inflight with
  | none => .next s
  | some f =>
    match decode f.word with
    | .instr i => exec i s
    | .illegal _ => .next (s.raiseError .illegalCmd)

/-- What one event does to the state from which it has been taken. -/
def deliver (e : Event) (s : State) : Host.Outcome State Fault Refusal :=
  match e with
  | .engine => engineStep s
  | .read addr bits => busRead addr bits s
  | .write addr bits v => busWrite addr bits v s
  | .powerOn asserted => .next (s.powerOnReset asserted)

/-- The next event, or the engine's turn when none is pending: so a command in flight that can complete does, once the
outside world is quiet (R48's fairness; log 7). -/
def nextStep (s : State) : Host.Outcome State Fault Refusal :=
  match s.events with
  | [] => engineStep s
  | e :: rest => deliver e (s.dequeue rest)

/-- The state with word w in flight and the engine's turn next. The block fetches nothing (R24), so this stands for the
host's write of CMD (R46; log 12): INFLIGHT takes the word and the current CTRL.DETB, and nothing else changes. -/
def State.placeWord (s : State) (w : Word) : State :=
  { s with inflight := some { word := w, detb := s.detb }, events := .engine :: s.events }

end Sys2Proof.Machine
end

