-- ==== Sys2Proof/Machine/Step.lean ====
section
/-! DEFINITION. One step of the machine, and the placing of an instruction where the next step runs it. -/

namespace Sys2Proof.Machine

/-- One step: the next external event, or the engine's turn (spec R45, R48). -/
def step (s : State) : Host.Outcome State Fault Refusal := nextStep s

/-- The state in which the very next step runs the instruction whose opcode-table bits are `w` (log 12). -/
def State.withFetchWord (s : State) (nbits w : Nat) : State := s.placeWord (tableWord nbits w)

end Sys2Proof.Machine
end

