-- ==== Sys2Proof/Safety.lean ====
section
/-! DEFINITION. What claims are stated in: the registers a command reads and writes (spec R22), the states in which the spec
names a model fault although the device goes on (R23, R65), the relations that say what a completion changes, and the
invariants of the machine. -/

namespace Sys2Proof.Machine

/-! ### What a command reads and writes (R22) -/

/-- The register a command may write: the one its RD field names, none for NOP and MRTEST. -/
def destReg : Instr → Option Reg
  | .nop => none
  | .mov rd _ => some rd
  | .ldi rd _ => some rd
  | .mullo rd _ _ => some rd
  | .mulhi rd _ _ => some rd
  | .modmul rd _ _ _ => some rd
  | .modexp rd _ _ _ => some rd
  | .crypt rd _ _ _ => some rd
  | .gcd rd _ _ => some rd
  | .modinv rd _ _ => some rd
  | .mrtest _ _ _ => none

/-- The base registers an MRTEST reads: in deterministic mode, for an odd candidate of at least 5, those of rounds 0 to
min(K, 8) - 1; otherwise none (R120, R125). -/
def baseRegs (ra rb : Reg) (k : BitVec 8) (s : State) : List Reg :=
  if s.inflightDetb ∧ 5 ≤ s.reg ra ∧ s.reg ra % 2 = 1 then (List.range (min k.toNat 8)).map (baseReg rb) else []

/-- The operand registers a command reads in a state (R22). -/
def operandRegs (s : State) : Instr → List Reg
  | .nop => []
  | .mov _ ra => [ra]
  | .ldi _ _ => []
  | .mullo _ ra rb => [ra, rb]
  | .mulhi _ ra rb => [ra, rb]
  | .modmul _ ra rb rm => [ra, rb, rm]
  | .modexp _ ra rb rm => [ra, rb, rm]
  | .crypt _ ra rb rm => [ra, rb, rm]
  | .gcd _ ra rb => [ra, rb]
  | .modinv _ ra rm => [ra, rm]
  | .mrtest ra rb k => ra :: baseRegs ra rb k s

/-! ### Model faults the spec names (R23, R65)

The device goes on in these states, and so does `step`; a claim about runs in which the host keeps the spec's rules
assumes that neither holds at any step (logs 2 and 3). -/

/-- R23's model fault at a command: an operand of it includes an unwritten limb. -/
def readsUnwritten (s : State) (i : Instr) : Bool := (operandRegs s i).any fun r => !s.regWritten r

/-- R23's model fault at the engine's turn: the command in flight reads an unwritten limb. -/
def engineReadsUnwritten (s : State) : Bool :=
  match s.inflight with
  | none => false
  | some f =>
    match decode f.word with
    | .instr i => readsUnwritten s i
    | .illegal _ => false

/-- R23's model fault at a host read: the offset is that of an unwritten limb, read while BUSY = 0. -/
def hostReadsUnwritten (s : State) (off : Nat) : Bool :=
  inOperandWindow off && !s.busy && windowLimb off < s.cfg.nlimb && !s.limbWritten (windowReg off) (windowLimb off)

/-- Whether a bus access is the block's and inside the spec: its address is in the window, and power-on reset is released
(R61, R350). -/
def takesAccess (s : State) (addr : Nat) : Bool :=
  s.cfg.base ≤ addr && addr < s.cfg.base + windowBytes && !s.porAsserted

/-- Whether the next step meets a model fault of R23. -/
def unwrittenFault (s : State) : Bool :=
  match s.events with
  | [] => engineReadsUnwritten s
  | .engine :: _ => engineReadsUnwritten s
  | .read addr bits :: _ =>
    takesAccess s addr && goodAccess (addr - s.cfg.base) bits && hostReadsUnwritten s (addr - s.cfg.base)
  | .write _ _ _ :: _ => false
  | .powerOn _ :: _ => false

/-- Whether the next step meets the host-program fault of R65: an access that is misaligned or not 32 bits wide. -/
def accessFault (s : State) : Bool :=
  match s.events with
  | [] => false
  | .engine :: _ => false
  | .read addr bits :: _ => takesAccess s addr && !goodAccess (addr - s.cfg.base) bits
  | .write addr bits _ :: _ => takesAccess s addr && !goodAccess (addr - s.cfg.base) bits
  | .powerOn _ :: _ => false

/-- A state whose next step keeps the spec's rules for hosts. -/
def SafeStep (s : State) : Prop := unwrittenFault s = false ∧ accessFault s = false

/-! ### What a completion changes -/

/-- The state no command writes: the parameters, CTRL, the misuse flags, the reset input, the pending events and the
bus answer (R51, R312). -/
def SameHostSide (s t : State) : Prop :=
  t.cfg = s.cfg ∧ t.ie = s.ie ∧ t.detb = s.detb ∧ t.cmdovr = s.cmdovr ∧ t.busyacc = s.busyacc ∧
    t.porAsserted = s.porAsserted ∧ t.events = s.events ∧ t.response = s.response

/-- t is s after a successful completion (R49), as far as the registers that every command shares go. -/
def Succeeds (s t : State) : Prop :=
  SameHostSide s t ∧ t.inflight = none ∧ t.done = true ∧ t.err = s.err ∧ t.errcode = s.errcode ∧ t.errcmd = s.errcmd

/-- t is s after an error completion with this code (R50, R300): no operand register is written. -/
def Fails (code : ErrCode) (s t : State) : Prop :=
  SameHostSide s t ∧ t.inflight = none ∧ t.done = true ∧ t.err = true ∧ t.errcode = code ∧
    t.errcmd = s.inflightWord ∧ t.regs = s.regs ∧ t.entropy = s.entropy

/-- Register rd takes value v with every limb marked written, and no other register changes (R22, R23). -/
def WritesOnly (rd : Reg) (v : Nat) (s t : State) : Prop :=
  t.reg rd = v ∧ t.marks rd = List.replicate s.cfg.nlimb true ∧ ∀ r, r ≠ rd → t.regs.get r = s.regs.get r

/-- PRIME, NOINV and the entropy source's answers are as before. -/
def SameVerdicts (s t : State) : Prop := t.prime = s.prime ∧ t.noinv = s.noinv ∧ t.entropy = s.entropy

/-- Base a accepts the odd candidate n (R121, R122): with n - 1 = 2 ^ r * d and d odd, a ^ d is 1 modulo n, or one of
a ^ d, a ^ (2 d), ..., a ^ (2 ^ (r - 1) * d) is n - 1 modulo n. -/
def BaseAccepts (n a : Nat) : Prop :=
  ∀ r d, n - 1 = 2 ^ r * d → d % 2 = 1 → a ^ d % n = 1 ∨ ∃ j, j < r ∧ a ^ (2 ^ j * d) % n = n - 1

/-- The first error a command meets, in R309's order, none where it meets none. -/
def firstError (s : State) : Instr → Option ErrCode
  | .nop => none
  | .mov _ _ => none
  | .ldi _ _ => none
  | .mullo _ _ _ => none
  | .mulhi _ _ _ => none
  | .modmul _ _ _ rm => if s.reg rm % 2 = 0 then some .badModulus else none
  | .modexp _ _ _ rm => if s.reg rm % 2 = 0 then some .badModulus else none
  | .crypt _ ra _ rm =>
    if s.reg rm % 2 = 0 then some .badModulus
    else if s.reg rm ≤ s.reg ra then some .invalidRange
    else none
  | .gcd _ _ _ => none
  | .modinv _ _ rm => if s.reg rm = 0 then some .badModulus else none
  | .mrtest ra rb k =>
    if k = 0 then some .illegalCmd
    else if (baseRegs ra rb k s).any (fun r => s.reg r < 2 || s.reg ra - 2 < s.reg r) then some .badBase
    else none

/-! ### Words and accesses -/

/-- The words R94 lists, by the fields each command uses: an unused field is 0, a register field in use is at most 7
(R92, R95), and an MRTEST has IMM8 != 0 (R93). -/
def LegalWord (w : Word) : Prop :=
  let op := (opField w).toNat
  let rd := (rdField w).toNat
  let ra := (raField w).toNat
  let rb := (rbField w).toNat
  let rm := (rmField w).toNat
  let imm := (immField w).toNat
  (op = 0x00 ∧ rd = 0 ∧ ra = 0 ∧ rb = 0 ∧ rm = 0 ∧ imm = 0) ∨
  (op = 0x01 ∧ rd ≤ 7 ∧ ra ≤ 7 ∧ rb = 0 ∧ rm = 0 ∧ imm = 0) ∨
  (op = 0x02 ∧ rd ≤ 7 ∧ ra = 0 ∧ rb = 0 ∧ rm = 0) ∨
  ((op = 0x08 ∨ op = 0x09 ∨ op = 0x18) ∧ rd ≤ 7 ∧ ra ≤ 7 ∧ rb ≤ 7 ∧ rm = 0 ∧ imm = 0) ∨
  ((op = 0x0A ∨ op = 0x10 ∨ op = 0x11) ∧ rd ≤ 7 ∧ ra ≤ 7 ∧ rb ≤ 7 ∧ rm ≤ 7 ∧ imm = 0) ∨
  (op = 0x19 ∧ rd ≤ 7 ∧ ra ≤ 7 ∧ rb = 0 ∧ rm ≤ 7 ∧ imm = 0) ∨
  (op = 0x20 ∧ rd = 0 ∧ ra ≤ 7 ∧ rb ≤ 7 ∧ rm = 0 ∧ imm ≠ 0)

/-- A command's encoding: exactly the words with this match and mask and these operand fields decode to it (R94, R97). -/
def EncodedAs (i : Instr) (pattern mask : Word) (operands : Word → Prop) : Prop :=
  ∀ w, decode w = .instr i ↔ w &&& mask = pattern ∧ operands w

/-- The next thing to happen is an aligned 32-bit read of this window offset, with power-on reset released. -/
def NextReads (s : State) (off : Nat) (rest : List Event) : Prop :=
  s.events = .read (s.cfg.base + off) 32 :: rest ∧ s.porAsserted = false ∧ off < 0x2000 ∧ off % 4 = 0

/-- The next thing to happen is an aligned 32-bit write of this window offset, with power-on reset released. -/
def NextWrites (s : State) (off : Nat) (v : Word) (rest : List Event) : Prop :=
  s.events = .write (s.cfg.base + off) 32 v :: rest ∧ s.porAsserted = false ∧ off < 0x2000 ∧ off % 4 = 0

/-- The next thing to happen is the engine's turn with this command in flight. -/
def NextRuns (s : State) (i : Instr) : Prop :=
  (s.events = [] ∨ ∃ rest, s.events = .engine :: rest) ∧
    ∃ f, s.inflight = some f ∧ decode f.word = .instr i

/-- The next thing to happen is a reset: a write of CTRL with bit 31 set, or a level change of the power-on input. -/
def NextResets (s : State) : Prop :=
  (∃ v rest, NextWrites s 0x008 v rest ∧ v.getLsbD 31 = true) ∨ ∃ b rest, s.events = .powerOn b :: rest

/-- Two states that differ at most in the values of limbs nothing has written (R23). -/
def AgreeOnWritten (s t : State) : Prop :=
  t = { s with regs := t.regs } ∧
    ∀ i, t.marks i = s.marks i ∧ ∀ j, s.limbWritten i j = true → limbOf (t.reg i) j = limbOf (s.reg i) j

/-- R100's `LOAD ri, v`: the host writes limbs 0 to n - 1 of v, in that order. -/
def State.loadLimbs (s : State) (i : Reg) (v n : Nat) : State :=
  (List.range n).foldl (fun u j => u.writeLimb i j (limbOf v j)) s

/-! ### Invariants -/

/-- Every register holds a value below 2^NBITS and one mark per limb (R20, R23). -/
abbrev RegsFit (s : State) : Prop :=
  ∀ i : Reg, s.reg i < 2 ^ s.cfg.nbits ∧ (s.marks i).length = s.cfg.nlimb

/-- ERR is 1 exactly when ERRCODE is not 0 (R34), and while BUSY = 1 both DONE and ERR are 0 (R33, R34). -/
abbrev FlagsAgree (s : State) : Prop :=
  (s.err = true ↔ s.errcode ≠ .noError) ∧ (s.busy = true → s.done = false ∧ s.err = false)

/-- While power-on reset is asserted the block's state has its power-on values (R350; log 9). That the registers hold 0
then is the model's choice (log 1), and so is the idle bus answer (log 8). -/
abbrev HeldInReset (s : State) : Prop :=
  s.porAsserted = true → s = s.powerOnReset true

/-- The error codes a decoded word can end in (R301's column "raised by"). -/
def canRaise : Decoded → ErrCode → Bool
  | .illegal _, .illegalCmd => true
  | .instr (.modmul _ _ _ _), .badModulus => true
  | .instr (.modexp _ _ _ _), .badModulus => true
  | .instr (.crypt _ _ _ _), .badModulus => true
  | .instr (.modinv _ _ _), .badModulus => true
  | .instr (.crypt _ _ _ _), .invalidRange => true
  | .instr (.mrtest _ _ _), .badBase => true
  | _, _ => false

/-- While ERR is 1, ERRCMD holds a word that raises the recorded code (R40, R301). -/
abbrev ErrorRecorded (s : State) : Prop := s.err = true → canRaise (decode s.errcmd) s.errcode = true

/-- The invariant of the machine. -/
abbrev Inv (s : State) : Prop :=
  s.cfg.Legal ∧ RegsFit s ∧ FlagsAgree s ∧ HeldInReset s ∧ ErrorRecorded s

end Sys2Proof.Machine
end

