-- ==== Sys2Proof/Certificates/Slice0/Obligations.lean ====
section
/-! DEFINITION. The statements for the provers, each from a numbered rule of the spec. A statement about what a command does
concludes that exec answers a next state, and says of that state everything: `Succeeds` and `Fails` give the control state,
`WritesOnly` the registers, `SameVerdicts` PRIME, NOINV and the entropy answers. -/

open Sys2Proof Sys2Proof.Machine

/-! ### Encoding -/

/-- Every command with an encoding decodes back from its word (R94, R97, R98). -/
def Obligations.DecodeEncodeRoundTrip : Prop :=
  ∀ i : Instr, i.wellFormed = true → decode (encode i) = .instr i

/-- A legal word is the only word of the command it decodes to, and that command is well-formed. -/
def Obligations.EncodeDecodeRoundTrip : Prop :=
  ∀ (w : Word) (i : Instr), decode w = .instr i → i.wellFormed = true ∧ encode i = w

/-- R95: the legal words are those whose unused fields are 0 (and whose used fields are in range); every other word is
illegal. -/
def Obligations.LegalWordsByFields : Prop :=
  ∀ w : Word, (∃ i, decode w = .instr i) ↔ LegalWord w

/-- R97: at most one row of the opcode map matches a word. -/
def Obligations.AtMostOneRowMatches : Prop :=
  ∀ (w : Word) (r q : OpcodeRow), r ∈ opcodeTable → q ∈ opcodeTable →
    matchesRow w r = true → matchesRow w q = true → r = q

/-- The words of 95_test_vectors.md, D-1 to D-10, and one of each family. -/
def Obligations.SpecWordsDecode : Prop :=
  decode 0x00000000 = .instr .nop ∧ decode 0x00001201 = .instr (.mov 2 1) ∧ decode 0x02000502 = .instr (.ldi 5 2) ∧
  decode 0x00021308 = .instr (.mullo 3 1 2) ∧ decode 0x00021309 = .instr (.mulhi 3 1 2) ∧
  decode 0x0032140A = .instr (.modmul 4 1 2 3) ∧ decode 0x00321410 = .instr (.modexp 4 1 2 3) ∧
  decode 0x00777711 = .instr (.crypt 7 7 7 7) ∧ decode 0x00021318 = .instr (.gcd 3 1 2) ∧
  decode 0x00304519 = .instr (.modinv 5 4 3) ∧ decode 0xFF077020 = .instr (.mrtest 7 7 255) ∧
  (∃ r, decode 0x00000100 = .illegal r) ∧ (∃ r, decode 0x00000801 = .illegal r) ∧
  (∃ r, decode 0x000000FF = .illegal r) ∧ (∃ r, decode 0x00000003 = .illegal r) ∧
  (∃ r, decode 0x01001308 = .illegal r) ∧ (∃ r, decode 0x00034519 = .illegal r) ∧
  (∃ r, decode 0xFF777020 = .illegal r) ∧ (∃ r, decode 0x00060020 = .illegal r)

/-! ### The engine's turn -/

/-- R47: a step that is the engine's turn (its event is next, or no event is pending: log 7) is the engine's turn on the state
from which that event has been taken; when the word in flight decodes to a command, that is exec of the command; and a word
placed by `withFetchWord` runs at the very next step (log 12). -/
def Obligations.StepRunsDecodedCommand : Prop :=
  (∀ s : State, (s.events = [] → step s = engineStep s) ∧
    ∀ rest, s.events = .engine :: rest → step s = engineStep { s with events := rest }) ∧
  (∀ (s : State) (f : InFlight) (i : Instr), s.inflight = some f → decode f.word = .instr i →
    engineStep s = exec i s) ∧
  ∀ (s : State) (nbits w : Nat) (i : Instr), decodeTableWord nbits w = some i →
    step (s.withFetchWord nbits w) = exec i { s with inflight := some { word := tableWord nbits w, detb := s.detb } }

/-- R302: an illegal word ends in the error completion ILLEGAL_CMD. Every field of the state after is given, none by an operand
register; PRIME and NOINV are unchanged. -/
def Obligations.IllegalCommandCompletion : Prop :=
  ∀ (s : State) (f : InFlight) (r : IllegalReason), s.inflight = some f → decode f.word = .illegal r →
    ∃ t, engineStep s = .next t ∧ Fails .illegalCmd s t ∧ t.errcmd = f.word ∧ SameVerdicts s t

/-! ### Utility commands -/

/-- R200. The only word with OP = 0x00 that is legal is 0. After its acceptance a NOP ends with BUSY 0, DONE 1, ERR and ERRCODE
clear, and IRQ high exactly when IE = 1. -/
def Obligations.NopOnlyCompletes : Prop :=
  EncodedAs .nop 0x00000000 0xFFFFFFFF (fun _ => True) ∧
  (∀ w, opField w = 0x00 → w ≠ 0 → ∃ r, decode w = .illegal r) ∧
  (∀ s : State, ∃ t, exec .nop s = .next t ∧ Succeeds s t ∧ t.regs = s.regs ∧ SameVerdicts s t) ∧
  ∀ s : State, ∃ t, exec .nop (s.accept 0) = .next t ∧ t.busy = false ∧ t.done = true ∧ t.err = false ∧
    t.errcode = .noError ∧ t.irq = s.ie

/-- R201. The source is an operand, so it must be written, RD = RA included (R23). -/
def Obligations.MovCopiesRegister : Prop :=
  ∀ rd ra : Reg,
    EncodedAs (.mov rd ra) 0x00000001 0xFFFF88FF (fun w => rdField w = regBits rd ∧ raField w = regBits ra) ∧
    ∀ s : State,
      (∃ t, exec (.mov rd ra) s = .next t ∧ Succeeds s t ∧ WritesOnly rd (s.reg ra) s t ∧ SameVerdicts s t) ∧
      (readsUnwritten s (.mov rd ra) = false ↔ s.regWritten ra = true)

/-- R202, with R93's zero extension. -/
def Obligations.LdiLoadsImmediate : Prop :=
  ∀ (rd : Reg) (v : BitVec 8),
    EncodedAs (.ldi rd v) 0x00000002 0x00FFF8FF (fun w => rdField w = regBits rd ∧ immField w = v) ∧
    ∀ s : State, ∃ t, exec (.ldi rd v) s = .next t ∧ Succeeds s t ∧ WritesOnly rd v.toNat s t ∧ SameVerdicts s t

/-! ### Big integer multiplier -/

/-- R160. -/
def Obligations.MulloLowHalf : Prop :=
  ∀ rd ra rb : Reg,
    EncodedAs (.mullo rd ra rb) 0x00000008 0xFFF888FF
      (fun w => rdField w = regBits rd ∧ raField w = regBits ra ∧ rbField w = regBits rb) ∧
    ∀ s : State, ∃ t, exec (.mullo rd ra rb) s = .next t ∧ Succeeds s t ∧
      WritesOnly rd ((s.reg ra * s.reg rb) % 2 ^ s.cfg.nbits) s t ∧ SameVerdicts s t

/-- R161. -/
def Obligations.MulhiHighHalf : Prop :=
  ∀ rd ra rb : Reg,
    EncodedAs (.mulhi rd ra rb) 0x00000009 0xFFF888FF
      (fun w => rdField w = regBits rd ∧ raField w = regBits ra ∧ rbField w = regBits rb) ∧
    ∀ s : State, ∃ t, exec (.mulhi rd ra rb) s = .next t ∧ Succeeds s t ∧
      WritesOnly rd ((s.reg ra * s.reg rb) / 2 ^ s.cfg.nbits) s t ∧ SameVerdicts s t ∧
      (s.cfg.Legal → RegsFit s → t.reg rd ≤ 2 ^ s.cfg.nbits - 2 ∧
        ∀ rd' u, exec (.mullo rd' ra rb) s = .next u →
          s.reg ra * s.reg rb = t.reg rd * 2 ^ s.cfg.nbits + u.reg rd')

/-- R162: the product modulo an odd modulus, and BAD_MODULUS for an even one. -/
def Obligations.ModmulProduct : Prop :=
  ∀ rd ra rb rm : Reg,
    EncodedAs (.modmul rd ra rb rm) 0x0000000A 0xFF8888FF
      (fun w => rdField w = regBits rd ∧ raField w = regBits ra ∧ rbField w = regBits rb ∧ rmField w = regBits rm) ∧
    ∀ s : State,
      (s.reg rm % 2 = 1 → ∃ t, exec (.modmul rd ra rb rm) s = .next t ∧ Succeeds s t ∧
        WritesOnly rd ((s.reg ra * s.reg rb) % s.reg rm) s t ∧ SameVerdicts s t) ∧
      (s.reg rm % 2 = 0 → ∃ t, exec (.modmul rd ra rb rm) s = .next t ∧ Fails .badModulus s t ∧ SameVerdicts s t)

/-! ### Modular exponentiation -/

/-- R181 with R180: (a ^ e) mod m for odd m, with no range check of a; BAD_MODULUS for even m. -/
def Obligations.ModexpPower : Prop :=
  ∀ rd ra rb rm : Reg,
    EncodedAs (.modexp rd ra rb rm) 0x00000010 0xFF8888FF
      (fun w => rdField w = regBits rd ∧ raField w = regBits ra ∧ rbField w = regBits rb ∧ rmField w = regBits rm) ∧
    ∀ s : State,
      (s.reg rm % 2 = 1 → ∃ t, exec (.modexp rd ra rb rm) s = .next t ∧ Succeeds s t ∧
        WritesOnly rd (s.reg ra ^ s.reg rb % s.reg rm) s t ∧ SameVerdicts s t) ∧
      (s.reg rm % 2 = 0 → ∃ t, exec (.modexp rd ra rb rm) s = .next t ∧ Fails .badModulus s t ∧ SameVerdicts s t)

/-- R182 with R304: (x ^ e) mod n for odd n and x < n; BAD_MODULUS for even n, else INVALID_RANGE for x >= n. -/
def Obligations.CryptPower : Prop :=
  ∀ rd ra rb rm : Reg,
    EncodedAs (.crypt rd ra rb rm) 0x00000011 0xFF8888FF
      (fun w => rdField w = regBits rd ∧ raField w = regBits ra ∧ rbField w = regBits rb ∧ rmField w = regBits rm) ∧
    ∀ s : State,
      (s.reg rm % 2 = 1 → s.reg ra < s.reg rm → ∃ t, exec (.crypt rd ra rb rm) s = .next t ∧ Succeeds s t ∧
        WritesOnly rd (s.reg ra ^ s.reg rb % s.reg rm) s t ∧ SameVerdicts s t) ∧
      (s.reg rm % 2 = 1 → s.reg rm ≤ s.reg ra → ∃ t, exec (.crypt rd ra rb rm) s = .next t ∧
        Fails .invalidRange s t ∧ SameVerdicts s t) ∧
      (s.reg rm % 2 = 0 → ∃ t, exec (.crypt rd ra rb rm) s = .next t ∧ Fails .badModulus s t ∧ SameVerdicts s t)

/-- R184: for a key pair with odd primes p and q, CRYPT with d undoes CRYPT with e on every x below n. (With p or q = 2
the modulus is even, and R182 gives BAD_MODULUS.) -/
def Obligations.RsaRoundTrip : Prop :=
  ∀ (p q e d x : Nat) (rd ra rb rm rd' ra' rb' rm' : Reg) (s t u : State),
    p.Prime → q.Prime → p ≠ q → p % 2 = 1 → q % 2 = 1 → e * d % ((p - 1) * (q - 1)) = 1 % ((p - 1) * (q - 1)) →
    x < p * q → s.reg ra = x → s.reg rb = e → s.reg rm = p * q → exec (.crypt rd ra rb rm) s = .next t →
    u.reg ra' = t.reg rd → u.reg rb' = d → u.reg rm' = p * q →
    ∃ v, exec (.crypt rd' ra' rb' rm') u = .next v ∧ Succeeds u v ∧ v.reg rd' = x

/-! ### Extended Euclid -/

/-- R140: every GCD completes with the greatest common divisor, gcd(0, 0) = 0. -/
def Obligations.GcdGreatestDivisor : Prop :=
  ∀ rd ra rb : Reg,
    EncodedAs (.gcd rd ra rb) 0x00000018 0xFFF888FF
      (fun w => rdField w = regBits rd ∧ raField w = regBits ra ∧ rbField w = regBits rb) ∧
    ∀ s : State, ∃ t, exec (.gcd rd ra rb) s = .next t ∧ Succeeds s t ∧
      WritesOnly rd (Nat.gcd (s.reg ra) (s.reg rb)) s t ∧ SameVerdicts s t

/-- R141: the result divides both operands, every common divisor divides it, and GCD is symmetric. -/
def Obligations.GcdLaws : Prop :=
  ∀ (rd ra rb rd' : Reg) (s t u : State), exec (.gcd rd ra rb) s = .next t → exec (.gcd rd' rb ra) s = .next u →
    t.reg rd ∣ s.reg ra ∧ t.reg rd ∣ s.reg rb ∧ (∀ c, c ∣ s.reg ra → c ∣ s.reg rb → c ∣ t.reg rd) ∧
      t.reg rd = u.reg rd'

/-- R142: BAD_MODULUS for m = 0; NOINV and no register write when gcd(a, m) != 1; else the inverse below m. -/
def Obligations.ModinvInverse : Prop :=
  ∀ rd ra rm : Reg,
    EncodedAs (.modinv rd ra rm) 0x00000019 0xFF8F88FF
      (fun w => rdField w = regBits rd ∧ raField w = regBits ra ∧ rmField w = regBits rm) ∧
    ∀ s : State,
      (s.reg rm = 0 → ∃ t, exec (.modinv rd ra rm) s = .next t ∧ Fails .badModulus s t ∧
        t.noinv = false ∧ t.prime = s.prime) ∧
      (s.reg rm ≠ 0 → Nat.gcd (s.reg ra) (s.reg rm) ≠ 1 → ∃ t, exec (.modinv rd ra rm) s = .next t ∧
        Succeeds s t ∧ t.regs = s.regs ∧ t.noinv = true ∧ t.prime = s.prime ∧ t.entropy = s.entropy) ∧
      (s.reg rm ≠ 0 → Nat.gcd (s.reg ra) (s.reg rm) = 1 → ∃ t v, exec (.modinv rd ra rm) s = .next t ∧
        Succeeds s t ∧ v < s.reg rm ∧ (s.reg ra * v) % s.reg rm = 1 % s.reg rm ∧ WritesOnly rd v s t ∧
        t.noinv = false ∧ t.prime = s.prime ∧ t.entropy = s.entropy)

/-- R144: for m >= 1, NOINV = 0 exactly when gcd(a, m) = 1, and then the result is the only inverse in [0, m). -/
def Obligations.ModinvLaws : Prop :=
  ∀ (rd ra rm : Reg) (s t : State), 1 ≤ s.reg rm → exec (.modinv rd ra rm) s = .next t →
    (t.noinv = false ↔ Nat.gcd (s.reg ra) (s.reg rm) = 1) ∧
    (t.noinv = false → ∀ v, t.reg rd = v ↔ v < s.reg rm ∧ (s.reg ra * v) % s.reg rm = 1 % s.reg rm)

/-! ### Miller-Rabin -/

/-- MRTEST's encoding, and its verdict on n <= 1, on 2 and 3, and on even n >= 4: no round, no base check, no draw,
whatever the mode (R120, corner cases). -/
def Obligations.MrtestTrivialCandidates : Prop :=
  ∀ (ra rb : Reg) (k : BitVec 8), k ≠ 0 →
    EncodedAs (.mrtest ra rb k) 0x00000020 0x00F88FFF
      (fun w => raField w = regBits ra ∧ rbField w = regBits rb ∧ immField w = k) ∧
    ∀ s : State, (s.reg ra ≤ 3 ∨ s.reg ra % 2 = 0) →
      ∃ t, exec (.mrtest ra rb k) s = .next t ∧ Succeeds s t ∧ t.regs = s.regs ∧
        (t.prime = true ↔ s.reg ra = 2 ∨ s.reg ra = 3) ∧ t.noinv = s.noinv ∧ t.entropy = s.entropy

/-- R125: deterministic mode. Round i uses base R[(RB + i) mod 8]; only for odd n >= 5 the bases of rounds 0 to
min(K, 8) - 1 are checked first, and one outside [2, n-2] ends the command with PRIME 0 and BAD_BASE. -/
def Obligations.MrtestDeterministic : Prop :=
  ∀ (ra rb : Reg) (k : BitVec 8) (s : State), k ≠ 0 → s.inflightDetb = true →
    (5 ≤ s.reg ra → s.reg ra % 2 = 1 →
      (∀ i, i < min k.toNat 8 →
        2 ≤ s.reg (Fin.ofNat 8 (rb.val + i)) ∧ s.reg (Fin.ofNat 8 (rb.val + i)) ≤ s.reg ra - 2) →
      ∃ t, exec (.mrtest ra rb k) s = .next t ∧ Succeeds s t ∧ t.regs = s.regs ∧
        (t.prime = true ↔ ∀ i, i < k.toNat → BaseAccepts (s.reg ra) (s.reg (Fin.ofNat 8 (rb.val + i)))) ∧
        t.noinv = s.noinv ∧ t.entropy = s.entropy) ∧
    (5 ≤ s.reg ra → s.reg ra % 2 = 1 →
      (∃ i, i < min k.toNat 8 ∧
        (s.reg (Fin.ofNat 8 (rb.val + i)) < 2 ∨ s.reg ra - 2 < s.reg (Fin.ofNat 8 (rb.val + i)))) →
      ∃ t, exec (.mrtest ra rb k) s = .next t ∧ Fails .badBase s t ∧ t.prime = false ∧ t.noinv = s.noinv) ∧
    (s.reg ra ≤ 3 ∨ s.reg ra % 2 = 0 → ∃ t, exec (.mrtest ra rb k) s = .next t ∧ Succeeds s t)

/-- R124, R126, in entropy mode with an answer for every round that runs: all K are there, or one before round K gives a base that
rejects. The rounds run in order; all K accept and the verdict is 1, or round m is the first that rejects, the verdict is 0,
and no answer after it is drawn. How an answer gives a base is the model's choice (log 5). -/
def Obligations.MrtestEntropyRounds : Prop :=
  ∀ (ra rb : Reg) (k : BitVec 8) (s : State), k ≠ 0 → s.inflightDetb = false → 5 ≤ s.reg ra → s.reg ra % 2 = 1 →
    (k.toNat ≤ s.entropy.length ∨
      ∃ m x, m < k.toNat ∧ s.entropy[m]? = some x ∧ ¬ BaseAccepts (s.reg ra) (entropyBase (s.reg ra) x)) →
    ∃ t, exec (.mrtest ra rb k) s = .next t ∧ Succeeds s t ∧ t.regs = s.regs ∧ t.noinv = s.noinv ∧
      ((t.prime = true ∧ k.toNat ≤ s.entropy.length ∧ t.entropy = s.entropy.drop k.toNat ∧
          ∀ x ∈ s.entropy.take k.toNat, BaseAccepts (s.reg ra) (entropyBase (s.reg ra) x)) ∨
        ∃ m x, m < k.toNat ∧ s.entropy[m]? = some x ∧ t.prime = false ∧ t.entropy = s.entropy.drop (m + 1) ∧
          ¬ BaseAccepts (s.reg ra) (entropyBase (s.reg ra) x) ∧
          ∀ y ∈ s.entropy.take m, BaseAccepts (s.reg ra) (entropyBase (s.reg ra) y))

/-- R124's stall: where the answers run out before the rounds do, all bases so far accepting, the completion step is not
taken: the command stays in flight and nothing changes. That a turn without a completion is a step that changes nothing is the
model's form of it (logs 5 and 6). -/
def Obligations.MrtestWaitsForEntropy : Prop :=
  ∀ (ra rb : Reg) (k : BitVec 8) (s : State), k ≠ 0 → s.inflightDetb = false → 5 ≤ s.reg ra → s.reg ra % 2 = 1 →
    s.entropy.length < k.toNat → (∀ x ∈ s.entropy, BaseAccepts (s.reg ra) (entropyBase (s.reg ra) x)) →
    exec (.mrtest ra rb k) s = .next s

/-- R123, R124: for n >= 5 the entropy answers give exactly the bases in [2, n-2]. The map from answers to bases is the
model's choice (log 5). -/
def Obligations.EntropyBasesCoverRange : Prop :=
  ∀ n a : Nat, 5 ≤ n → ((∃ x, entropyBase n x = a) ↔ 2 ≤ a ∧ a ≤ n - 2)

/-- R128: the laws of the verdict of a successful completion, whatever the bases. In entropy mode the bases are those the answers
give by the model's map (log 5). -/
def Obligations.VerdictLaws : Prop :=
  ∀ (ra rb : Reg) (k : BitVec 8) (s t : State), k ≠ 0 → s.busy = true → exec (.mrtest ra rb k) s = .next t →
    Succeeds s t → firstError s (.mrtest ra rb k) = none →
    (Nat.Prime (s.reg ra) → t.prime = true) ∧
    (t.prime = false → s.reg ra ≤ 1 ∨ ¬ Nat.Prime (s.reg ra)) ∧
    (5 ≤ s.reg ra → s.reg ra % 2 = 1 →
      let bases := if s.inflightDetb then s.detBases rb k.toNat else s.entropyBases (s.reg ra)
      (t.prime = true ↔ k.toNat ≤ bases.length ∧ ∀ a ∈ bases.take k.toNat, BaseAccepts (s.reg ra) a))

/-! ### Errors and the frame of all commands -/

/-- R309: a command ends in the first error of the order BAD_MODULUS, INVALID_RANGE, BAD_BASE that holds for it, and in
none where none holds; only an MRTEST in entropy mode may stay in flight instead (log 6). An MRTEST with K = 0, which no word
decodes to, is ILLEGAL_CMD (log 16). -/
def Obligations.ErrorPriority : Prop :=
  ∀ (i : Instr) (s : State),
    (∀ c, firstError s i = some c → ∃ t, exec i s = .next t ∧ Fails c s t) ∧
    (firstError s i = none → ∃ t, exec i s = .next t ∧
      (Succeeds s t ∨ t = s ∧ ∃ ra rb k, i = .mrtest ra rb k ∧ s.inflightDetb = false ∧ 5 ≤ s.reg ra))

/-- R300: the engine's turn that ends a command in an error writes no operand register, and of the flags beside the error report
only PRIME <- 0 (MRTEST, BAD_BASE) and NOINV <- 0 (MODINV, BAD_MODULUS), each of which it does write. -/
def Obligations.ErrorsArePrecise : Prop :=
  ∀ s t : State, engineStep s = .next t → s.err = false → t.err = true →
    Fails t.errcode s t ∧
    (t.errcode = .badBase → (∃ ra rb k, decode s.inflightWord = .instr (.mrtest ra rb k)) ∧ t.prime = false) ∧
    (t.errcode ≠ .badBase → t.prime = s.prime) ∧
    ((∃ rd ra rm, decode s.inflightWord = .instr (.modinv rd ra rm)) → t.errcode = .badModulus ∧ t.noinv = false) ∧
    ((¬ ∃ rd ra rm, decode s.inflightWord = .instr (.modinv rd ra rm)) → t.noinv = s.noinv)

/-- R301: the numbers of the error codes as STATUS bits 19 to 16 show them, the cause of each, the commands that raise it, and
what is recorded (`Fails`: ERRCMD is the word, no register changed). No other number is shown, and 0 is shown exactly when
ERR = 0. -/
def Obligations.ErrorCodeTable : Prop :=
  (∀ s : State, (s.statusWord.extractLsb' 16 4).toNat ≤ 4) ∧
  (∀ s : State, FlagsAgree s → (s.err = false ↔ (s.statusWord.extractLsb' 16 4).toNat = 0)) ∧
  ∀ s t : State, engineStep s = .next t → s.err = false → t.err = true →
    Fails t.errcode s t ∧
    (((t.statusWord.extractLsb' 16 4).toNat = 1 ∧ ∃ r, decode s.inflightWord = .illegal r) ∨
      ((t.statusWord.extractLsb' 16 4).toNat = 2 ∧
        ((∃ rd ra rb rm, (decode s.inflightWord = .instr (.modmul rd ra rb rm) ∨
            decode s.inflightWord = .instr (.modexp rd ra rb rm) ∨
            decode s.inflightWord = .instr (.crypt rd ra rb rm)) ∧ s.reg rm % 2 = 0) ∨
          ∃ rd ra rm, decode s.inflightWord = .instr (.modinv rd ra rm) ∧ s.reg rm = 0)) ∨
      ((t.statusWord.extractLsb' 16 4).toNat = 3 ∧
        ∃ rd ra rb rm, decode s.inflightWord = .instr (.crypt rd ra rb rm) ∧ s.reg rm % 2 = 1 ∧
          s.reg rm ≤ s.reg ra) ∨
      ((t.statusWord.extractLsb' 16 4).toNat = 4 ∧ t.prime = false ∧
        ∃ ra rb k i, decode s.inflightWord = .instr (.mrtest ra rb k) ∧ s.inflightDetb = true ∧ 5 ≤ s.reg ra ∧
          s.reg ra % 2 = 1 ∧ i < min k.toNat 8 ∧
          (s.reg (Fin.ofNat 8 (rb.val + i)) < 2 ∨ s.reg ra - 2 < s.reg (Fin.ofNat 8 (rb.val + i)))))

/-- R22's frame over all commands: no register but the one RD names is written, and only with every limb marked; PRIME
changes only by MRTEST and NOINV only by MODINV; nothing of the host's side changes. -/
def Obligations.CommandFrame : Prop :=
  ∀ (i : Instr) (s t : State), exec i s = .next t →
    SameHostSide s t ∧
    (∀ r, t.regs.get r ≠ s.regs.get r → destReg i = some r ∧ t.marks r = List.replicate s.cfg.nlimb true) ∧
    (t.prime ≠ s.prime → ∃ ra rb k, i = .mrtest ra rb k) ∧
    (t.noinv ≠ s.noinv → ∃ rd ra rm, i = .modinv rd ra rm) ∧
    (t.entropy ≠ s.entropy → ∃ ra rb k, i = .mrtest ra rb k)

/-- R51: no command reads a flag. Two states that agree on the parameters, the registers, INFLIGHT and the entropy
answers, and perhaps on nothing else, get the same registers, the same INFLIGHT and the same verdicts. -/
def Obligations.FlagsDoNotAffectCommands : Prop :=
  ∀ (i : Instr) (s u a b : State), u.cfg = s.cfg → u.regs = s.regs → u.inflight = s.inflight → u.entropy = s.entropy →
    exec i s = .next a → exec i u = .next b →
    b.regs = a.regs ∧ b.inflight = a.inflight ∧ b.entropy = a.entropy ∧
    (∀ ra rb k, i = .mrtest ra rb k → k ≠ 0 → s.busy = true → a.busy = false → b.prime = a.prime) ∧
    (∀ rd ra rm, i = .modinv rd ra rm → b.noinv = a.noinv)

/-- R23's discipline: two states that differ only in the values of unwritten limbs get, from a command that reads no unwritten
limb, and from a step that meets no unwritten-limb fault (log 2), outcomes that again differ in nothing else. So in a step, and
step by step in a run, without such a fault, the value the model names for unwritten limbs at reset (log 1) cannot be seen, not
by the host either: the answer on the bus is the same. -/
def Obligations.UnwrittenValuesInvisible : Prop :=
  (∀ (i : Instr) (s t : State), RegsFit s → RegsFit t → AgreeOnWritten s t → readsUnwritten s i = false →
    ∃ s' t', exec i s = .next s' ∧ exec i t = .next t' ∧ AgreeOnWritten s' t') ∧
  ∀ s t : State, RegsFit s → RegsFit t → AgreeOnWritten s t → unwrittenFault s = false →
    (∀ s', step s = .next s' → ∃ t', step t = .next t' ∧ AgreeOnWritten s' t') ∧
    (∀ f, step s = .fault f → step t = .fault f) ∧
    ∀ r, step s = .refused r → step t = .refused r

/-- R23: a host read of an unwritten limb (while BUSY = 0), and the engine's turn on a command whose operand includes an unwritten
limb, are what the model names an unwritten-limb fault, and nothing else is. The machine goes on at one (log 2). -/
def Obligations.UnwrittenReadsAreFaults : Prop :=
  (∀ (s : State) (i : Reg) (j : Nat) (rest : List Event), j ≤ 127 →
    NextReads s (0x1000 + 0x200 * i.val + 4 * j) rest →
    (unwrittenFault s = true ↔ s.busy = false ∧ j < s.cfg.nlimb ∧ s.limbWritten i j = false)) ∧
  (∀ (s : State) (i : Instr), RegsFit s → NextRuns s i →
    (unwrittenFault s = true ↔ ∃ r ∈ operandRegs s i, ∃ j, j < s.cfg.nlimb ∧ s.limbWritten r j = false)) ∧
  ∀ s : State, unwrittenFault s = true →
    (∃ i, NextRuns s i) ∨ ∃ i j rest, j ≤ 127 ∧ NextReads s (0x1000 + 0x200 * Fin.val (n := 8) i + 4 * j) rest

/-! ### The host's accesses -/

/-- R46: acceptance, and nothing else changes. -/
def Obligations.CommandAccepted : Prop :=
  ∀ (s : State) (w : Word) (rest : List Event), NextWrites s 0x010 w rest → s.busy = false →
    step s = .next { s with
      inflight := some { word := w, detb := s.detb }, done := false, err := false, errcode := .noError
      events := rest, response := .writeDone }

/-- R39: a CMD write while BUSY = 1 is dropped and sets CMDOVR, one while BUSY = 0 puts the word in flight; a read of CMD
returns 0 and has no effect. -/
def Obligations.CmdRegister : Prop :=
  ∀ (s : State) (rest : List Event),
    (∀ w, NextWrites s 0x010 w rest → s.busy = true →
      step s = .next { s with cmdovr := true, events := rest, response := .writeDone }) ∧
    (∀ w, NextWrites s 0x010 w rest → s.busy = false →
      step s = .next (((s.dequeue rest).accept w).answer .writeDone)) ∧
    (NextReads s 0x010 rest → step s = .next { s with events := rest, response := .readData 0 })

/-- R29 with R352 and R356: a CTRL write with bit 31 set is a soft reset and ignores bits 1:0; otherwise it sets IE and
DETB and leaves the command in flight as it is; a read returns DETB and IE. -/
def Obligations.CtrlRegister : Prop :=
  ∀ (s : State) (rest : List Event),
    (∀ v, NextWrites s 0x008 v rest → v.getLsbD 31 = true →
      step s = .next { s with
        inflight := none, ie := false, detb := false, done := false, err := false, errcode := .noError
        cmdovr := false, busyacc := false, prime := false, noinv := false, errcmd := 0
        events := rest, response := .writeDone }) ∧
    (∀ v, NextWrites s 0x008 v rest → v.getLsbD 31 = false →
      step s = .next { s with
        ie := v.getLsbD 0, detb := v.getLsbD 1, events := rest, response := .writeDone }) ∧
    (NextReads s 0x008 rest → ∃ w, step s = .next { s with events := rest, response := .readData w } ∧
      w.toNat = s.ie.toNat + 2 * s.detb.toNat)

/-- R31: the write-one-to-clear bits of STATUS, whatever BUSY is. -/
def Obligations.StatusWriteClears : Prop :=
  ∀ (s : State) (v : Word) (rest : List Event), NextWrites s 0x00C v rest →
    ∃ t, step s = .next t ∧
      t = { s with
        done := t.done, err := t.err, errcode := t.errcode, cmdovr := t.cmdovr, busyacc := t.busyacc
        events := rest, response := .writeDone } ∧
      (if v.getLsbD 1 then t.done = false else t.done = s.done) ∧
      (if v.getLsbD 2 then t.err = false ∧ t.errcode = .noError else t.err = s.err ∧ t.errcode = s.errcode) ∧
      (if v.getLsbD 3 then t.cmdovr = false else t.cmdovr = s.cmdovr) ∧
      (if v.getLsbD 4 then t.busyacc = false else t.busyacc = s.busyacc)

/-- R26, R27 and the STATUS and ERRCMD reads: what each returns, as a number (the error codes with R301's numbers), with no
effect on the block. -/
def Obligations.ControlRegisterReads : Prop :=
  ∀ (s : State) (rest : List Event),
    (NextReads s 0x000 rest → step s = .next { s with events := rest, response := .readData 0x52534131 }) ∧
    (NextReads s 0x004 rest → s.cfg.Legal →
      ∃ w, step s = .next { s with events := rest, response := .readData w } ∧ w.toNat = 8 * 2 ^ 16 + s.cfg.nbits / 32) ∧
    (NextReads s 0x00C rest → ∃ w c, step s = .next { s with events := rest, response := .readData w } ∧
      w.toNat = s.busy.toNat + 2 * s.done.toNat + 4 * s.err.toNat + 8 * s.cmdovr.toNat + 16 * s.busyacc.toNat +
        2 ^ 8 * s.prime.toNat + 2 ^ 9 * s.noinv.toNat + 2 ^ 16 * c ∧
      (s.errcode = .noError → c = 0) ∧ (s.errcode = .illegalCmd → c = 1) ∧ (s.errcode = .badModulus → c = 2) ∧
      (s.errcode = .invalidRange → c = 3) ∧ (s.errcode = .badBase → c = 4)) ∧
    (NextReads s 0x014 rest → step s = .next { s with events := rest, response := .readData s.errcmd })

/-- R41: reserved offsets read 0 and ignore writes, and writes to ID, CFG and ERRCMD are ignored. -/
def Obligations.ReservedOffsets : Prop :=
  ∀ (s : State) (off : Nat) (rest : List Event),
    (NextReads s off rest → 0x018 ≤ off → off ≤ 0xFFC →
      step s = .next { s with events := rest, response := .readData 0 }) ∧
    ∀ v, NextWrites s off v rest → (0x018 ≤ off ∧ off ≤ 0xFFC) ∨ off = 0x000 ∨ off = 0x004 ∨ off = 0x014 →
      step s = .next { s with events := rest, response := .writeDone }

/-- R62: the operand window while BUSY = 0. Word j of register i is limb j for j < NLIMB, and RAZ/WI above. A write of a
limb leaves the other limbs and registers, and marks that one limb written (R23). -/
def Obligations.OperandWindowIdle : Prop :=
  ∀ (s : State) (i : Reg) (j : Nat) (rest : List Event), s.busy = false → j ≤ 127 →
    (NextReads s (0x1000 + 0x200 * i.val + 4 * j) rest →
      ∃ w, step s = .next { s with events := rest, response := .readData w } ∧
        w.toNat = if j < s.cfg.nlimb then s.reg i / 2 ^ (32 * j) % 2 ^ 32 else 0) ∧
    ∀ v, NextWrites s (0x1000 + 0x200 * i.val + 4 * j) v rest →
      ∃ t, step s = .next t ∧ t = { s with regs := t.regs, events := rest, response := .writeDone } ∧
        (∀ r, r ≠ i → t.regs.get r = s.regs.get r) ∧
        if j < s.cfg.nlimb then
          t.reg i / 2 ^ (32 * j) % 2 ^ 32 = v.toNat ∧
          (∀ k, k ≠ j → t.reg i / 2 ^ (32 * k) % 2 ^ 32 = s.reg i / 2 ^ (32 * k) % 2 ^ 32) ∧
          t.marks i = (s.marks i).set j true
        else t.regs = s.regs

/-- R68: a window access while BUSY = 1 reads 0, writes nothing, sets BUSYACC and is no bus error; the control registers stay
accessible, a read of one having no effect. -/
def Obligations.OperandWindowBusy : Prop :=
  ∀ (s : State) (off : Nat) (rest : List Event), s.busy = true →
    (0x1000 ≤ off →
      (NextReads s off rest → step s = .next { s with busyacc := true, events := rest, response := .readData 0 }) ∧
      ∀ v, NextWrites s off v rest →
        step s = .next { s with busyacc := true, events := rest, response := .writeDone }) ∧
    (off < 0x1000 →
      (NextReads s off rest → ∃ w, step s = .next { s with events := rest, response := .readData w }) ∧
      ∀ v, NextWrites s off v rest →
        ∃ t, step s = .next t ∧ t.response = .writeDone ∧ (t.busyacc = true → s.busyacc = true))

/-- R65: a misaligned access, or one that is not 32 bits wide, is answered with a bus error and changes nothing, a read
returning 0 with it; the model names it a fault of the host program (`accessFault`). -/
def Obligations.BadAccessBusError : Prop :=
  ∀ (s : State) (off bits : Nat) (rest : List Event), off < 0x2000 → s.porAsserted = false →
    (off % 4 ≠ 0 ∨ bits ≠ 32) →
    (s.events = .read (s.cfg.base + off) bits :: rest →
      step s = .next { s with events := rest, response := .readError 0 } ∧ accessFault s = true) ∧
    ∀ v, s.events = .write (s.cfg.base + off) bits v :: rest →
      step s = .next { s with events := rest, response := .writeError } ∧ accessFault s = true

/-- The two stops of the bus port, both the model's: an address outside the window is not the block's (R61; log 10), and an access
while power-on reset is asserted is outside the spec (R350, 93_implementation_defined.md; log 9). -/
def Obligations.BusStops : Prop :=
  ∀ (s : State) (addr bits : Nat) (rest : List Event),
    (s.events = .read addr bits :: rest ∨ ∃ v, s.events = .write addr bits v :: rest) →
    ((addr < s.cfg.base ∨ s.cfg.base + 0x2000 ≤ addr) → step s = .fault .outsideWindow) ∧
    (s.cfg.base ≤ addr → addr < s.cfg.base + 0x2000 → s.porAsserted = true → step s = .refused .busDuringReset)

/-- R69: a word written to a limb of the window is read back, where nothing else happens in between. -/
def Obligations.ReadAfterWrite : Prop :=
  ∀ (s : State) (i : Reg) (j : Nat) (v : Word) (rest : List Event), s.busy = false → j < s.cfg.nlimb → j ≤ 127 →
    NextWrites s (0x1000 + 0x200 * i.val + 4 * j) v
      (.read (s.cfg.base + (0x1000 + 0x200 * i.val + 4 * j)) 32 :: rest) →
    ∃ t u, step s = .next t ∧ step t = .next u ∧ u.response = .readData v

/-- R21 and R100's LOAD: NLIMB limb writes give the register the value, all limbs marked, and change no other register. -/
def Obligations.LoadSequenceWritesRegister : Prop :=
  ∀ (s : State) (i : Reg) (v : Nat), RegsFit s → v < 2 ^ s.cfg.nbits →
    (s.loadLimbs i v s.cfg.nlimb).reg i = v ∧ (s.loadLimbs i v s.cfg.nlimb).regWritten i = true ∧
      ∀ r, r ≠ i → (s.loadLimbs i v s.cfg.nlimb).regs.get r = s.regs.get r

/-- R63: limbs and byte lanes are little-endian: byte n of a register's window is bits 8n+7 to 8n of the register. -/
def Obligations.WindowBytesLittleEndian : Prop :=
  ∀ (s : State) (i : Reg) (n : Nat), s.cfg.Legal → n < 4 * s.cfg.nlimb →
    (byteLane (s.windowRead (0x1000 + 0x200 * i.val + 4 * (n / 4))) (n % 4)).toNat = s.reg i / 2 ^ (8 * n) % 2 ^ 8

/-! ### Reset and interrupt -/

/-- R350: both levels of the power-on reset input give the power-on values; R351: the block is then idle. The operand
registers are marked unwritten; what they hold is the model's choice (log 1) and not stated. -/
def Obligations.PowerOnReset : Prop :=
  ∀ (s : State) (b : Bool) (rest : List Event), s.events = .powerOn b :: rest →
    ∃ t, step s = .next t ∧ t.porAsserted = b ∧ t.cfg = s.cfg ∧ t.events = rest ∧ t.entropy = s.entropy ∧
      t.inflight = none ∧ t.busy = false ∧ t.ctrlWord = 0 ∧ t.statusWord = 0 ∧ t.errcmd = 0 ∧ t.irq = false ∧
      ∀ i, t.marks i = List.replicate s.cfg.nlimb false

/-- R310: IRQ is IE AND DONE; with IE = 1 it is high after the completion of any command, successful or not, and after the host
sets IE while DONE = 1. -/
def Obligations.IrqRises : Prop :=
  (∀ s : State, s.irq = true ↔ s.ie = true ∧ s.done = true) ∧
  (∀ s t : State, s.busy = true → s.ie = true → engineStep s = .next t → t.busy = false → t.irq = true) ∧
  ∀ (s t : State) (v : Word) (rest : List Event), NextWrites s 0x008 v rest → v.getLsbD 31 = false →
    v.getLsbD 0 = true → s.done = true → step s = .next t → t.irq = true

/-- R311: IRQ is cleared by a W1C write of DONE, by acceptance, by writing IE = 0 (which keeps DONE), and by reset. -/
def Obligations.IrqClears : Prop :=
  ∀ (s t : State) (rest : List Event), step s = .next t →
    (∀ v, NextWrites s 0x00C v rest → v.getLsbD 1 = true → t.done = false ∧ t.irq = false) ∧
    (∀ w, NextWrites s 0x010 w rest → s.busy = false → t.done = false ∧ t.irq = false) ∧
    (∀ v, NextWrites s 0x008 v rest → v.getLsbD 31 = false → v.getLsbD 0 = false → t.done = s.done ∧ t.irq = false) ∧
    (NextResets s → t.done = false ∧ t.irq = false)

/-- R313: an error completion is acknowledged by a write of 1 to STATUS bits 1 and 2, or by the acceptance of the next command;
either clears DONE, ERR and ERRCODE and leaves ERRCMD, which a later successful completion keeps too and a second error
overwrites, with ERRCODE. -/
def Obligations.Acknowledgement : Prop :=
  (∀ (s t : State) (rest : List Event), step s = .next t →
    ((∃ v, NextWrites s 0x00C v rest ∧ v.getLsbD 1 = true ∧ v.getLsbD 2 = true) ∨
      ∃ w, NextWrites s 0x010 w rest ∧ s.busy = false) →
    t.done = false ∧ t.err = false ∧ t.errcode = .noError ∧ t.errcmd = s.errcmd) ∧
  ∀ s t : State, engineStep s = .next t → s.err = false →
    (t.err = false → t.errcmd = s.errcmd) ∧ (t.err = true → t.errcmd = s.inflightWord ∧ t.errcode ≠ .noError)

/-! ### What may change each piece of state -/

/-- R35: CMDOVR is set by a CMD write while BUSY = 1 and by nothing else, and cleared by a W1C write of bit 3 or by reset and by
nothing else. -/
def Obligations.CmdovrSources : Prop :=
  ∀ s t : State, step s = .next t →
    (∀ w rest, NextWrites s 0x010 w rest → s.busy = true → t.cmdovr = true) ∧
    (s.cmdovr = false → t.cmdovr = true → ∃ w rest, NextWrites s 0x010 w rest ∧ s.busy = true) ∧
    ((∃ v rest, NextWrites s 0x00C v rest ∧ v.getLsbD 3 = true) ∨ NextResets s → t.cmdovr = false) ∧
    (s.cmdovr = true → t.cmdovr = false → (∃ v rest, NextWrites s 0x00C v rest ∧ v.getLsbD 3 = true) ∨ NextResets s)

/-- R36: BUSYACC is set by a window access while BUSY = 1 and by nothing else, and cleared by a W1C write of bit 4 or by reset
and by nothing else. -/
def Obligations.BusyaccSources : Prop :=
  ∀ s t : State, step s = .next t →
    (∀ off rest, 0x1000 ≤ off → (NextReads s off rest ∨ ∃ v, NextWrites s off v rest) → s.busy = true →
      t.busyacc = true) ∧
    (s.busyacc = false → t.busyacc = true → s.busy = true ∧
      ∃ off rest, 0x1000 ≤ off ∧ (NextReads s off rest ∨ ∃ v, NextWrites s off v rest)) ∧
    ((∃ v rest, NextWrites s 0x00C v rest ∧ v.getLsbD 4 = true) ∨ NextResets s → t.busyacc = false) ∧
    (s.busyacc = true → t.busyacc = false → (∃ v rest, NextWrites s 0x00C v rest ∧ v.getLsbD 4 = true) ∨ NextResets s)

/-- R40: ERRCMD takes the word in flight at every error completion and 0 at every reset, and changes at no other step. -/
def Obligations.ErrcmdSources : Prop :=
  ∀ s t : State, step s = .next t →
    (s.err = false → t.err = true → t.errcmd = s.inflightWord) ∧
    (NextResets s → t.errcmd = 0) ∧
    (t.errcmd ≠ s.errcmd → (NextResets s ∧ t.errcmd = 0) ∨
      ∃ f, s.inflight = some f ∧ t.inflight = none ∧ t.err = true ∧ t.errcmd = f.word)

/-- R37 and R38: PRIME changes only by an MRTEST completion and NOINV only by a MODINV completion, or by reset. -/
def Obligations.VerdictFlagSources : Prop :=
  ∀ s t : State, step s = .next t →
    (t.prime ≠ s.prime → (NextResets s ∧ t.prime = false) ∨ t.inflight = none ∧ ∃ ra rb k, NextRuns s (.mrtest ra rb k)) ∧
    (t.noinv ≠ s.noinv → (NextResets s ∧ t.noinv = false) ∨ t.inflight = none ∧ ∃ rd ra rm, NextRuns s (.modinv rd ra rm))

/-- R22: an operand register changes only by a successful command that names it as RD, by a host write of a limb of it
while BUSY = 0, or by power-on reset. -/
def Obligations.RegisterSources : Prop :=
  ∀ (s t : State) (r : Reg), step s = .next t → t.regs.get r ≠ s.regs.get r →
    (∃ i, NextRuns s i ∧ destReg i = some r ∧ t.inflight = none ∧ t.err = s.err) ∨
    (s.busy = false ∧ ∃ j v rest, j < s.cfg.nlimb ∧ NextWrites s (0x1000 + 0x200 * r.val + 4 * j) v rest) ∨
    ∃ b rest, s.events = .powerOn b :: rest

/-- R73: no write to CMD or to the operand window changes an accepted command; any step either leaves INFLIGHT as it is or
ends it. -/
def Obligations.AcceptedCommandIsFixed : Prop :=
  ∀ (s t : State) (f : InFlight), step s = .next t → s.inflight = some f →
    (∀ off v rest, NextWrites s off v rest → off = 0x010 ∨ 0x1000 ≤ off → t.inflight = some f) ∧
    (t.inflight = some f ∨ t.inflight = none)

/-! ### The invariant -/

/-- Every step keeps the invariant: legal parameters, registers below 2^NBITS with one mark a limb (R20, R23), ERR and
ERRCODE in step and clear while BUSY (R33, R34), power-on values while reset is held (R350), and an ERRCMD word that raises
the recorded code (R40, R301). Of the power-on values, that every register holds 0 and that the bus answer is idle are the
model's choice, not R350's (logs 1, 8, 9): R350 leaves the registers unspecified and only marked unwritten. -/
def Obligations.StepKeepsInv : Prop :=
  ∀ s t : State, Inv s → step s = .next t → Inv t

/-- The state after reset has the invariant. -/
def Obligations.ResetHasInv : Prop := Inv State.reset
end

