-- ==== Sys2Proof/Laws/Arith.lean ====
section
/-! SUPPORT. What each loop of Machine/Arith.lean computes, in the words of ordinary arithmetic. -/

namespace Sys2Proof.Machine

/-! ### Euclid (R140) -/

theorem euclidLoop_eq_gcd (fuel a b : Nat) (h : b ≤ fuel) : euclidLoop fuel a b = Nat.gcd a b := by
  induction fuel generalizing a b with
  | zero =>
    obtain rfl : b = 0 := by omega
    simp [euclidLoop]
  | succ fuel ih =>
    by_cases hb : b = 0
    · simp [euclidLoop, hb]
    · have hlt := Nat.mod_lt a (Nat.pos_of_ne_zero hb)
      rw [euclidLoop, if_neg hb, ih b (a % b) (by omega), Nat.gcd_comm b, ← Nat.gcd_rec, Nat.gcd_comm]

/-- R140's loop computes the greatest common divisor. -/
theorem euclid_eq_gcd (a b : Nat) : euclid a b = Nat.gcd a b := euclidLoop_eq_gcd b a b (le_refl b)

/-! ### Extended Euclid (R142, R143) -/

/-- The loop ends with the gcd of its first two arguments, and keeps r0 and r1 congruent to a multiple of a. -/
theorem extEuclidLoop_spec (a m : Int) (fuel r0 r1 : Nat) (t0 t1 : Int) (hf : r1 ≤ fuel)
    (h0 : (r0 : Int) ≡ a * t0 [ZMOD m]) (h1 : (r1 : Int) ≡ a * t1 [ZMOD m]) :
    (extEuclidLoop fuel r0 r1 t0 t1).1 = Nat.gcd r0 r1 ∧
      ((extEuclidLoop fuel r0 r1 t0 t1).1 : Int) ≡ a * (extEuclidLoop fuel r0 r1 t0 t1).2 [ZMOD m] := by
  induction fuel generalizing r0 r1 t0 t1 with
  | zero =>
    obtain rfl : r1 = 0 := by omega
    simpa [extEuclidLoop] using h0
  | succ fuel ih =>
    by_cases hr : r1 = 0
    · subst hr
      simpa [extEuclidLoop] using h0
    · have hlt := Nat.mod_lt r0 (Nat.pos_of_ne_zero hr)
      have hdiv : ((r0 % r1 : Nat) : Int) = r0 - (r0 / r1 : Nat) * r1 := by
        have h2 : ((r0 % r1 : Nat) : Int) + r1 * (r0 / r1 : Nat) = r0 := by exact_mod_cast Nat.mod_add_div r0 r1
        linarith
      have hstep : ((r0 % r1 : Nat) : Int) ≡ a * (t0 - (r0 / r1 : Nat) * t1) [ZMOD m] := by
        rw [hdiv, mul_sub]
        refine Int.ModEq.sub h0 ?_
        have := Int.ModEq.mul_left ((r0 / r1 : Nat) : Int) h1
        calc ((r0 / r1 : Nat) : Int) * r1 ≡ (r0 / r1 : Nat) * (a * t1) [ZMOD m] := this
          _ = a * ((r0 / r1 : Nat) * t1) := by ring
      have := ih r1 (r0 % r1) t1 _ (by omega) h1 hstep
      rw [extEuclidLoop, if_neg hr]
      refine ⟨?_, this.2⟩
      rw [this.1, Nat.gcd_comm r1, ← Nat.gcd_rec, Nat.gcd_comm]

/-- R142's inverse: it exists exactly when gcd(a, m) = 1, lies in [0, m), and is an inverse modulo m. -/
theorem modInverse_spec (a m : Nat) (hm : 0 < m) :
    (modInverse a m = none ∧ Nat.gcd a m ≠ 1) ∨
      ∃ t, modInverse a m = some t ∧ Nat.gcd a m = 1 ∧ t < m ∧ a * t % m = 1 % m := by
  have h := extEuclidLoop_spec a m (a % m) m (a % m) 0 1 (le_refl _)
    (by simp [Int.ModEq])
    (by simpa using (Int.mod_modEq (a : Int) m))
  have hg : (extEuclidLoop (a % m) m (a % m) 0 1).1 = Nat.gcd a m := by
    rw [h.1, Nat.gcd_comm m, ← Nat.gcd_rec, Nat.gcd_comm]
  by_cases h1 : Nat.gcd a m = 1
  · refine Or.inr ⟨((extEuclidLoop (a % m) m (a % m) 0 1).2 % m).toNat, ?_, h1, ?_, ?_⟩
    · simp [modInverse, hg, h1]
    · have := Int.emod_lt_of_pos (extEuclidLoop (a % m) m (a % m) 0 1).2 (by exact_mod_cast hm : (0 : Int) < m)
      have := Int.emod_nonneg (extEuclidLoop (a % m) m (a % m) 0 1).2 (by omega : (m : Int) ≠ 0)
      omega
    · have hn := Int.emod_nonneg (extEuclidLoop (a % m) m (a % m) 0 1).2 (by omega : (m : Int) ≠ 0)
      have h2 := h.2
      rw [hg, h1] at h2
      have : ((a * ((extEuclidLoop (a % m) m (a % m) 0 1).2 % m).toNat : Nat) : Int) ≡ ((1 : Nat) : Int) [ZMOD m] := by
        push_cast [Int.toNat_of_nonneg hn]
        exact (Int.ModEq.mul_left (a : Int) (Int.mod_modEq _ _)).trans h2.symm
      exact (Int.natCast_modEq_iff.mp this)
  · exact Or.inl ⟨by simp [modInverse, hg, h1], h1⟩

/-! ### Modular exponentiation (R180) -/

theorem modExpLoop_eq (fuel b e m acc : Nat) (he : e ≤ fuel) :
    modExpLoop fuel b e m acc ≡ acc * b ^ e [MOD m] := by
  induction fuel generalizing b e acc with
  | zero =>
    obtain rfl : e = 0 := by omega
    simpa [modExpLoop] using Nat.ModEq.refl acc
  | succ fuel ih =>
    by_cases h0 : e = 0
    · subst h0
      simpa [modExpLoop] using Nat.ModEq.refl acc
    · rw [modExpLoop, if_neg h0]
      refine (ih _ _ _ (by omega)).trans ?_
      have hb : (b * b % m) ^ (e / 2) ≡ (b * b) ^ (e / 2) [MOD m] := (Nat.mod_modEq _ _).pow _
      by_cases h1 : e % 2 = 1
      · rw [if_pos h1]
        refine ((Nat.mod_modEq _ _).mul hb).trans ?_
        have : acc * b * (b * b) ^ (e / 2) = acc * b ^ e := by
          conv_rhs => rw [show e = 2 * (e / 2) + 1 by omega, pow_succ, pow_mul, pow_two]
          ring
        rw [this]
      · rw [if_neg h1]
        refine (Nat.ModEq.refl acc |>.mul hb).trans ?_
        have : (b * b) ^ (e / 2) = b ^ e := by
          conv_rhs => rw [show e = 2 * (e / 2) by omega, pow_mul, pow_two]
        rw [this]

theorem modExpLoop_lt (fuel b e m acc : Nat) (hm : 0 < m) (ha : acc < m) : modExpLoop fuel b e m acc < m := by
  induction fuel generalizing b e acc with
  | zero => simpa [modExpLoop] using ha
  | succ fuel ih =>
    rw [modExpLoop]
    split
    · exact ha
    · refine ih _ _ _ ?_
      split
      · exact Nat.mod_lt _ hm
      · exact ha

/-- ModExp(a, e, m) is a ^ e modulo m, for m >= 1 (R180). -/
theorem modExp_eq (a e m : Nat) (hm : 0 < m) : modExp a e m = a ^ e % m := by
  have h := modExpLoop_eq e (a % m) e m (1 % m) (le_refl e)
  have h2 : modExp a e m ≡ a ^ e [MOD m] := by
    refine h.trans ?_
    simpa using ((Nat.mod_modEq 1 m).mul ((Nat.mod_modEq a m).pow e))
  have hlt : modExp a e m < m := modExpLoop_lt _ _ _ _ _ hm (Nat.mod_lt _ hm)
  rw [← Nat.mod_eq_of_lt hlt]
  exact h2

/-! ### Miller-Rabin (R121, R122, R126) -/

theorem splitLoop_spec (fuel r d : Nat) (hd : 0 < d) (hf : d ≤ fuel) :
    (splitLoop fuel r d).2 % 2 = 1 ∧ 2 ^ (splitLoop fuel r d).1 * (splitLoop fuel r d).2 = 2 ^ r * d ∧
      r ≤ (splitLoop fuel r d).1 ∧ (d % 2 = 0 → r < (splitLoop fuel r d).1) := by
  induction fuel generalizing r d with
  | zero => omega
  | succ fuel ih =>
    by_cases h : d % 2 = 0
    · have := ih (r + 1) (d / 2) (by omega) (by omega)
      rw [splitLoop, if_pos h]
      refine ⟨this.1, this.2.1.trans ?_, by omega, fun _ => by omega⟩
      conv_rhs => rw [show d = 2 * (d / 2) by omega]
      ring
    · rw [splitLoop, if_neg h]
      exact ⟨by omega, rfl, le_refl _, fun h' => absurd h' h⟩

/-- split(n) of R121: n - 1 = 2 ^ r * d with d odd, and r >= 1 for odd n >= 3. -/
theorem split_spec (n : Nat) (hn : 2 ≤ n) :
    (split n).2 % 2 = 1 ∧ 2 ^ (split n).1 * (split n).2 = n - 1 ∧ (n % 2 = 1 → 1 ≤ (split n).1) := by
  have h := splitLoop_spec n 0 (n - 1) (by omega) (by omega)
  exact ⟨h.1, h.2.1.trans (by simp), fun ho => h.2.2.2 (by omega)⟩

/-- R122's loop finds n - 1 among the squares it makes. -/
theorem squareLoop_iff (n k x : Nat) :
    squareLoop n k x = true ↔ ∃ j, 1 ≤ j ∧ j ≤ k ∧ x ^ 2 ^ j % n = n - 1 := by
  induction k generalizing x with
  | zero =>
    simp only [squareLoop, Bool.false_eq_true, false_iff]
    rintro ⟨j, h1, h0, -⟩
    omega
  | succ k ih =>
    have hpow : ∀ j, (x * x % n) ^ 2 ^ j % n = x ^ 2 ^ (j + 1) % n := fun j => by
      rw [← Nat.pow_mod, pow_succ' 2 j, pow_mul, pow_two]
    rw [squareLoop]
    constructor
    · intro h
      by_cases h1 : x * x % n = n - 1
      · exact ⟨1, le_refl _, by omega, by rw [pow_one, pow_two]; exact h1⟩
      · rw [if_neg h1, ih] at h
        obtain ⟨j, hj1, hjk, hj⟩ := h
        exact ⟨j + 1, by omega, by omega, by rw [← hpow]; exact hj⟩
    · rintro ⟨j, hj1, hjk, hj⟩
      by_cases h1 : x * x % n = n - 1
      · rw [if_pos h1]
      · rw [if_neg h1, ih]
        obtain rfl | hne := eq_or_ne j 1
        · rw [pow_one, pow_two] at hj
          exact absurd hj h1
        · exact ⟨j - 1, by omega, by omega, by rw [hpow, Nat.sub_add_cancel hj1]; exact hj⟩

/-- round(n, r, d, a) of R122, with the powers written out. -/
theorem mrRound_iff (n r d a : Nat) (hn : 0 < n) (hr : 1 ≤ r) :
    mrRound n r d a = true ↔ a ^ d % n = 1 ∨ ∃ j, j < r ∧ a ^ (2 ^ j * d) % n = n - 1 := by
  have hpow : ∀ j, (a ^ d % n) ^ 2 ^ j % n = a ^ (2 ^ j * d) % n := fun j => by
    rw [← Nat.pow_mod, ← pow_mul, mul_comm]
  rw [mrRound]
  simp only [modExp_eq a d n hn]
  constructor
  · intro h
    split at h
    · rename_i hx
      exact hx.imp id fun hx => ⟨0, by omega, by simpa using hx⟩
    · obtain ⟨j, _, hjr, hj⟩ := (squareLoop_iff _ _ _).mp h
      exact Or.inr ⟨j, by omega, by rw [← hpow]; exact hj⟩
  · rintro (h | ⟨j, hjr, hj⟩)
    · rw [if_pos (Or.inl h)]
    · split
      · rfl
      · rename_i hx
        refine (squareLoop_iff _ _ _).mpr ⟨j, ?_, by omega, by rw [hpow]; exact hj⟩
        rcases Nat.eq_zero_or_pos j with rfl | h0
        · exact absurd (Or.inr (by simpa using hj)) hx
        · exact h0

/-- How a run of rounds ends (R126): every round accepts; or the first `m` bases are used, the last of them the first that
rejects; or a round is left with no base, all bases before it accepting. -/
theorem runRounds_spec (n r d k : Nat) (as : List Nat) (used : Nat) :
    (runRounds n r d k as used = .verdict true (used + k) ∧ k ≤ as.length ∧
        ∀ a ∈ as.take k, mrRound n r d a = true) ∨
      (∃ m a, m < k ∧ as[m]? = some a ∧ mrRound n r d a = false ∧ (∀ b ∈ as.take m, mrRound n r d b = true) ∧
        runRounds n r d k as used = .verdict false (used + m + 1)) ∨
      (runRounds n r d k as used = .waiting ∧ as.length < k ∧ ∀ a ∈ as, mrRound n r d a = true) := by
  induction k generalizing as used with
  | zero => exact Or.inl ⟨by simp [runRounds], by simp, by simp⟩
  | succ k ih =>
    cases as with
    | nil => exact Or.inr (Or.inr ⟨by simp [runRounds], by simp, by simp⟩)
    | cons a as =>
      cases ha : mrRound n r d a with
      | false =>
        exact Or.inr (Or.inl ⟨0, a, by omega, by simp, ha, by simp, by simp [runRounds, ha]⟩)
      | true =>
        have hstep : runRounds n r d (k + 1) (a :: as) used = runRounds n r d k as (used + 1) := by
          simp [runRounds, ha]
        rcases ih as (used + 1) with ⟨h1, h2, h3⟩ | ⟨m, b, hm, hb, hr, hall, he⟩ | ⟨h1, h2, h3⟩
        · refine Or.inl ⟨?_, by simpa using h2, by simpa [ha] using h3⟩
          rw [hstep, h1]
          congr 1
          omega
        · refine Or.inr (Or.inl ⟨m + 1, b, by omega, by simpa using hb, hr, by simpa [ha] using hall, ?_⟩)
          rw [hstep, he]
          congr 1
          omega
        · exact Or.inr (Or.inr ⟨by rw [hstep, h1], by simpa using h2, by simpa [ha] using h3⟩)

/-- An entropy answer gives a base in [2, n-2] (R123, R124). -/
theorem entropyBase_mem (n x : Nat) (hn : 5 ≤ n) : 2 ≤ entropyBase n x ∧ entropyBase n x ≤ n - 2 := by
  have := Nat.mod_lt x (show 0 < n - 3 by omega)
  unfold entropyBase
  omega

end Sys2Proof.Machine
end

