-- ==== Sys2Proof/Laws/Decode.lean ====
section
/-! SUPPORT. The fields of a packed word, and masking of packed words: what proofs about the decoder and the encoder rest on. -/

namespace Sys2Proof

section
variable (op op' : BitVec 8) (rd ra rb rm rd' ra' rb' rm' : BitVec 4) (imm imm' : BitVec 8)

/-- The bits of a packed word. -/
theorem getLsbD_packWord (i : Nat) :
    (packWord op rd ra rb rm imm).getLsbD i =
      if i < 8 then op.getLsbD i else if i < 12 then rd.getLsbD (i - 8) else if i < 16 then ra.getLsbD (i - 12)
      else if i < 20 then rb.getLsbD (i - 16) else if i < 24 then rm.getLsbD (i - 20) else imm.getLsbD (i - 24) := by
  change (imm ++ rm ++ rb ++ ra ++ rd ++ op : BitVec (8 + 4 + 4 + 4 + 4 + 8)).getLsbD i = _
  rw [BitVec.getLsbD_append, BitVec.getLsbD_append, BitVec.getLsbD_append, BitVec.getLsbD_append, BitVec.getLsbD_append]
  simp only [Nat.sub_sub, Nat.reduceAdd]
  split_ifs <;> first | rfl | omega

@[simp] theorem opField_packWord : opField (packWord op rd ra rb rm imm) = op := by
  ext i hi
  simp only [opField, packWord, BitVec.getElem_extractLsb', BitVec.getLsbD_append]
  simp [hi, BitVec.getLsbD_eq_getElem]

@[simp] theorem rdField_packWord : rdField (packWord op rd ra rb rm imm) = rd := by
  ext i hi
  simp only [rdField, packWord, BitVec.getElem_extractLsb', BitVec.getLsbD_append]
  simp [hi, BitVec.getLsbD_eq_getElem]

@[simp] theorem raField_packWord : raField (packWord op rd ra rb rm imm) = ra := by
  ext i hi
  simp only [raField, packWord, BitVec.getElem_extractLsb', BitVec.getLsbD_append]
  simp [hi, BitVec.getLsbD_eq_getElem, show ¬ 12 + i < 8 by omega, show ¬ 12 + i - 8 < 4 by omega, show 12 + i - 8 - 4 = i by omega]

@[simp] theorem rbField_packWord : rbField (packWord op rd ra rb rm imm) = rb := by
  ext i hi
  simp only [rbField, packWord, BitVec.getElem_extractLsb', BitVec.getLsbD_append]
  simp [hi, BitVec.getLsbD_eq_getElem, show ¬ 16 + i < 8 by omega, show ¬ 16 + i - 8 < 4 by omega,
    show ¬ 16 + i - 8 - 4 < 4 by omega, show 16 + i - 8 - 4 - 4 = i by omega]

@[simp] theorem rmField_packWord : rmField (packWord op rd ra rb rm imm) = rm := by
  ext i hi
  simp only [rmField, packWord, BitVec.getElem_extractLsb', BitVec.getLsbD_append]
  simp [hi, BitVec.getLsbD_eq_getElem, show ¬ 20 + i < 8 by omega, show ¬ 20 + i - 8 < 4 by omega,
    show ¬ 20 + i - 8 - 4 < 4 by omega, show ¬ 20 + i - 8 - 4 - 4 < 4 by omega, show 20 + i - 8 - 4 - 4 - 4 = i by omega]

@[simp] theorem immField_packWord : immField (packWord op rd ra rb rm imm) = imm := by
  ext i hi
  simp only [immField, packWord, BitVec.getElem_extractLsb', BitVec.getLsbD_append]
  simp [hi, BitVec.getLsbD_eq_getElem, show ¬ 24 + i < 8 by omega, show ¬ 24 + i - 8 < 4 by omega,
    show ¬ 24 + i - 8 - 4 < 4 by omega, show ¬ 24 + i - 8 - 4 - 4 < 4 by omega,
    show ¬ 24 + i - 8 - 4 - 4 - 4 < 4 by omega, show 24 + i - 8 - 4 - 4 - 4 - 4 = i by omega]

/-- Masking works field by field. -/
theorem packWord_and :
    packWord op rd ra rb rm imm &&& packWord op' rd' ra' rb' rm' imm' =
      packWord (op &&& op') (rd &&& rd') (ra &&& ra') (rb &&& rb') (rm &&& rm') (imm &&& imm') := by
  apply BitVec.eq_of_getLsbD_eq
  intro i _
  simp only [BitVec.getLsbD_and, getLsbD_packWord]
  split_ifs <;> rfl

/-- Two packed words are the same exactly when their fields are. -/
theorem packWord_inj :
    packWord op rd ra rb rm imm = packWord op' rd' ra' rb' rm' imm' ↔
      op = op' ∧ rd = rd' ∧ ra = ra' ∧ rb = rb' ∧ rm = rm' ∧ imm = imm' := by
  constructor
  · intro h
    exact ⟨by simpa using congrArg opField h, by simpa using congrArg rdField h, by simpa using congrArg raField h,
      by simpa using congrArg rbField h, by simpa using congrArg rmField h, by simpa using congrArg immField h⟩
  · rintro ⟨rfl, rfl, rfl, rfl, rfl, rfl⟩
    rfl

end

/-- A word is its six fields. -/
theorem packWord_fields (w : Word) :
    packWord (opField w) (rdField w) (raField w) (rbField w) (rmField w) (immField w) = w := by
  apply BitVec.eq_of_getLsbD_eq
  intro i hi
  simp only [getLsbD_packWord, opField, rdField, raField, rbField, rmField, immField, BitVec.getLsbD_extractLsb']
  split_ifs <;> rw [decide_eq_true (by omega), Bool.true_and] <;> congr 1 <;> omega

/-- The opcode map with its patterns and masks drawn as fields (R94's note: a mask covers OP, every unused field, and bit 3
of every register field in use). -/
def packedTable : List OpcodeRow := [
  ⟨.nop,    packWord 0x00 0 0 0 0 0, packWord 0xFF 0xF 0xF 0xF 0xF 0xFF⟩,
  ⟨.mov,    packWord 0x01 0 0 0 0 0, packWord 0xFF 8 8 0xF 0xF 0xFF⟩,
  ⟨.ldi,    packWord 0x02 0 0 0 0 0, packWord 0xFF 8 0xF 0xF 0xF 0⟩,
  ⟨.mullo,  packWord 0x08 0 0 0 0 0, packWord 0xFF 8 8 8 0xF 0xFF⟩,
  ⟨.mulhi,  packWord 0x09 0 0 0 0 0, packWord 0xFF 8 8 8 0xF 0xFF⟩,
  ⟨.modmul, packWord 0x0A 0 0 0 0 0, packWord 0xFF 8 8 8 8 0xFF⟩,
  ⟨.modexp, packWord 0x10 0 0 0 0 0, packWord 0xFF 8 8 8 8 0xFF⟩,
  ⟨.crypt,  packWord 0x11 0 0 0 0 0, packWord 0xFF 8 8 8 8 0xFF⟩,
  ⟨.gcd,    packWord 0x18 0 0 0 0 0, packWord 0xFF 8 8 8 0xF 0xFF⟩,
  ⟨.modinv, packWord 0x19 0 0 0 0 0, packWord 0xFF 8 8 0xF 8 0xFF⟩,
  ⟨.mrtest, packWord 0x20 0 0 0 0 0, packWord 0xFF 0xF 8 8 0xF 0⟩]

theorem opcodeTable_packed : opcodeTable = packedTable := by decide

/-- R97's test of a row, field by field. -/
theorem matchesRow_packWord (op p q : BitVec 8) (rd ra rb rm mrd mra mrb mrm : BitVec 4) (imm mimm : BitVec 8)
    (m : Mnemonic) :
    matchesRow (packWord op rd ra rb rm imm) ⟨m, packWord p 0 0 0 0 0, packWord q mrd mra mrb mrm mimm⟩ = true ↔
      (op &&& q = p ∧ rd &&& mrd = 0 ∧ ra &&& mra = 0 ∧ rb &&& mrb = 0 ∧ rm &&& mrm = 0 ∧ imm &&& mimm = 0) ∧
        (m = .mrtest → imm ≠ 0) := by
  simp only [matchesRow, packWord_and, Bool.and_eq_true, beq_iff_eq, packWord_inj, Bool.or_eq_true, bne_iff_ne,
    immField_packWord]
  tauto

/-- The four bits of a register name have bit 3 clear, and name it. -/
theorem regBits_spec (r : Reg) : regBits r &&& 8 = 0 ∧ fieldReg (regBits r) = r := by
  revert r
  decide

/-- A field with bit 3 clear names the register whose four bits it is. -/
theorem regBits_fieldReg (f : BitVec 4) (h : f &&& 8 = 0) : regBits (fieldReg f) = f := by
  revert f
  decide

end Sys2Proof
end

