-- ==== Sys2Proof/Laws/State.lean ====
section
/-! SUPPORT. What each field, and each view of the state, is after each named update: true by unfolding, for simp, so that no
later proof unfolds a record update. -/

namespace Sys2Proof.Machine

/-! ### writeReg -/

section
variable (s : State) (i : Reg) (v : Nat)

@[simp] theorem State.writeReg_cfg : (s.writeReg i v).cfg = s.cfg := rfl
@[simp] theorem State.writeReg_regs : (s.writeReg i v).regs = s.regs.set i { value := v, written := List.replicate s.cfg.nlimb true } := rfl
@[simp] theorem State.writeReg_inflight : (s.writeReg i v).inflight = s.inflight := rfl
@[simp] theorem State.writeReg_ie : (s.writeReg i v).ie = s.ie := rfl
@[simp] theorem State.writeReg_detb : (s.writeReg i v).detb = s.detb := rfl
@[simp] theorem State.writeReg_done : (s.writeReg i v).done = s.done := rfl
@[simp] theorem State.writeReg_err : (s.writeReg i v).err = s.err := rfl
@[simp] theorem State.writeReg_errcode : (s.writeReg i v).errcode = s.errcode := rfl
@[simp] theorem State.writeReg_cmdovr : (s.writeReg i v).cmdovr = s.cmdovr := rfl
@[simp] theorem State.writeReg_busyacc : (s.writeReg i v).busyacc = s.busyacc := rfl
@[simp] theorem State.writeReg_prime : (s.writeReg i v).prime = s.prime := rfl
@[simp] theorem State.writeReg_noinv : (s.writeReg i v).noinv = s.noinv := rfl
@[simp] theorem State.writeReg_errcmd : (s.writeReg i v).errcmd = s.errcmd := rfl
@[simp] theorem State.writeReg_porAsserted : (s.writeReg i v).porAsserted = s.porAsserted := rfl
@[simp] theorem State.writeReg_events : (s.writeReg i v).events = s.events := rfl
@[simp] theorem State.writeReg_entropy : (s.writeReg i v).entropy = s.entropy := rfl
@[simp] theorem State.writeReg_response : (s.writeReg i v).response = s.response := rfl
@[simp] theorem State.writeReg_busy : (s.writeReg i v).busy = s.busy := rfl
@[simp] theorem State.writeReg_inflightWord : (s.writeReg i v).inflightWord = s.inflightWord := rfl
@[simp] theorem State.writeReg_inflightDetb : (s.writeReg i v).inflightDetb = s.inflightDetb := rfl

end

/-! ### writeLimb -/

section
variable (s : State) (i : Reg) (j : Nat) (v : Word)

@[simp] theorem State.writeLimb_cfg : (s.writeLimb i j v).cfg = s.cfg := (rfl)
@[simp] theorem State.writeLimb_regs : (s.writeLimb i j v).regs = s.regs.set i { value := withLimb (s.reg i) j v, written := (s.marks i).set j true } := (rfl)
@[simp] theorem State.writeLimb_inflight : (s.writeLimb i j v).inflight = s.inflight := (rfl)
@[simp] theorem State.writeLimb_ie : (s.writeLimb i j v).ie = s.ie := (rfl)
@[simp] theorem State.writeLimb_detb : (s.writeLimb i j v).detb = s.detb := (rfl)
@[simp] theorem State.writeLimb_done : (s.writeLimb i j v).done = s.done := (rfl)
@[simp] theorem State.writeLimb_err : (s.writeLimb i j v).err = s.err := (rfl)
@[simp] theorem State.writeLimb_errcode : (s.writeLimb i j v).errcode = s.errcode := (rfl)
@[simp] theorem State.writeLimb_cmdovr : (s.writeLimb i j v).cmdovr = s.cmdovr := (rfl)
@[simp] theorem State.writeLimb_busyacc : (s.writeLimb i j v).busyacc = s.busyacc := (rfl)
@[simp] theorem State.writeLimb_prime : (s.writeLimb i j v).prime = s.prime := (rfl)
@[simp] theorem State.writeLimb_noinv : (s.writeLimb i j v).noinv = s.noinv := (rfl)
@[simp] theorem State.writeLimb_errcmd : (s.writeLimb i j v).errcmd = s.errcmd := (rfl)
@[simp] theorem State.writeLimb_porAsserted : (s.writeLimb i j v).porAsserted = s.porAsserted := (rfl)
@[simp] theorem State.writeLimb_events : (s.writeLimb i j v).events = s.events := (rfl)
@[simp] theorem State.writeLimb_entropy : (s.writeLimb i j v).entropy = s.entropy := (rfl)
@[simp] theorem State.writeLimb_response : (s.writeLimb i j v).response = s.response := (rfl)
@[simp] theorem State.writeLimb_busy : (s.writeLimb i j v).busy = s.busy := (rfl)
@[simp] theorem State.writeLimb_inflightWord : (s.writeLimb i j v).inflightWord = s.inflightWord := (rfl)
@[simp] theorem State.writeLimb_inflightDetb : (s.writeLimb i j v).inflightDetb = s.inflightDetb := (rfl)

end

/-! ### accept -/

section
variable (s : State) (w : Word)

@[simp] theorem State.accept_cfg : (s.accept w).cfg = s.cfg := rfl
@[simp] theorem State.accept_regs : (s.accept w).regs = s.regs := rfl
@[simp] theorem State.accept_inflight : (s.accept w).inflight = some { word := w, detb := s.detb } := rfl
@[simp] theorem State.accept_ie : (s.accept w).ie = s.ie := rfl
@[simp] theorem State.accept_detb : (s.accept w).detb = s.detb := rfl
@[simp] theorem State.accept_done : (s.accept w).done = false := rfl
@[simp] theorem State.accept_err : (s.accept w).err = false := rfl
@[simp] theorem State.accept_errcode : (s.accept w).errcode = .noError := rfl
@[simp] theorem State.accept_cmdovr : (s.accept w).cmdovr = s.cmdovr := rfl
@[simp] theorem State.accept_busyacc : (s.accept w).busyacc = s.busyacc := rfl
@[simp] theorem State.accept_prime : (s.accept w).prime = s.prime := rfl
@[simp] theorem State.accept_noinv : (s.accept w).noinv = s.noinv := rfl
@[simp] theorem State.accept_errcmd : (s.accept w).errcmd = s.errcmd := rfl
@[simp] theorem State.accept_porAsserted : (s.accept w).porAsserted = s.porAsserted := rfl
@[simp] theorem State.accept_events : (s.accept w).events = s.events := rfl
@[simp] theorem State.accept_entropy : (s.accept w).entropy = s.entropy := rfl
@[simp] theorem State.accept_response : (s.accept w).response = s.response := rfl
@[simp] theorem State.accept_reg (r : Reg) : (s.accept w).reg r = s.reg r := rfl
@[simp] theorem State.accept_marks (r : Reg) : (s.accept w).marks r = s.marks r := rfl
@[simp] theorem State.accept_busy : (s.accept w).busy = true := rfl

end

/-! ### complete -/

section
variable (s : State)

@[simp] theorem State.complete_cfg : s.complete.cfg = s.cfg := rfl
@[simp] theorem State.complete_regs : s.complete.regs = s.regs := rfl
@[simp] theorem State.complete_inflight : s.complete.inflight = none := rfl
@[simp] theorem State.complete_ie : s.complete.ie = s.ie := rfl
@[simp] theorem State.complete_detb : s.complete.detb = s.detb := rfl
@[simp] theorem State.complete_done : s.complete.done = true := rfl
@[simp] theorem State.complete_err : s.complete.err = s.err := rfl
@[simp] theorem State.complete_errcode : s.complete.errcode = s.errcode := rfl
@[simp] theorem State.complete_cmdovr : s.complete.cmdovr = s.cmdovr := rfl
@[simp] theorem State.complete_busyacc : s.complete.busyacc = s.busyacc := rfl
@[simp] theorem State.complete_prime : s.complete.prime = s.prime := rfl
@[simp] theorem State.complete_noinv : s.complete.noinv = s.noinv := rfl
@[simp] theorem State.complete_errcmd : s.complete.errcmd = s.errcmd := rfl
@[simp] theorem State.complete_porAsserted : s.complete.porAsserted = s.porAsserted := rfl
@[simp] theorem State.complete_events : s.complete.events = s.events := rfl
@[simp] theorem State.complete_entropy : s.complete.entropy = s.entropy := rfl
@[simp] theorem State.complete_response : s.complete.response = s.response := rfl
@[simp] theorem State.complete_reg (r : Reg) : s.complete.reg r = s.reg r := rfl
@[simp] theorem State.complete_marks (r : Reg) : s.complete.marks r = s.marks r := rfl
@[simp] theorem State.complete_busy : s.complete.busy = false := rfl

end

/-! ### raiseError -/

section
variable (s : State) (c : ErrCode)

@[simp] theorem State.raiseError_cfg : (s.raiseError c).cfg = s.cfg := rfl
@[simp] theorem State.raiseError_regs : (s.raiseError c).regs = s.regs := rfl
@[simp] theorem State.raiseError_inflight : (s.raiseError c).inflight = none := rfl
@[simp] theorem State.raiseError_ie : (s.raiseError c).ie = s.ie := rfl
@[simp] theorem State.raiseError_detb : (s.raiseError c).detb = s.detb := rfl
@[simp] theorem State.raiseError_done : (s.raiseError c).done = true := rfl
@[simp] theorem State.raiseError_err : (s.raiseError c).err = true := rfl
@[simp] theorem State.raiseError_errcode : (s.raiseError c).errcode = c := rfl
@[simp] theorem State.raiseError_cmdovr : (s.raiseError c).cmdovr = s.cmdovr := rfl
@[simp] theorem State.raiseError_busyacc : (s.raiseError c).busyacc = s.busyacc := rfl
@[simp] theorem State.raiseError_prime : (s.raiseError c).prime = s.prime := rfl
@[simp] theorem State.raiseError_noinv : (s.raiseError c).noinv = s.noinv := rfl
@[simp] theorem State.raiseError_errcmd : (s.raiseError c).errcmd = s.inflightWord := rfl
@[simp] theorem State.raiseError_porAsserted : (s.raiseError c).porAsserted = s.porAsserted := rfl
@[simp] theorem State.raiseError_events : (s.raiseError c).events = s.events := rfl
@[simp] theorem State.raiseError_entropy : (s.raiseError c).entropy = s.entropy := rfl
@[simp] theorem State.raiseError_response : (s.raiseError c).response = s.response := rfl
@[simp] theorem State.raiseError_reg (r : Reg) : (s.raiseError c).reg r = s.reg r := rfl
@[simp] theorem State.raiseError_marks (r : Reg) : (s.raiseError c).marks r = s.marks r := rfl
@[simp] theorem State.raiseError_busy : (s.raiseError c).busy = false := rfl

end

/-! ### writeStatus -/

section
variable (s : State) (v : Word)

@[simp] theorem State.writeStatus_cfg : (s.writeStatus v).cfg = s.cfg := rfl
@[simp] theorem State.writeStatus_regs : (s.writeStatus v).regs = s.regs := rfl
@[simp] theorem State.writeStatus_inflight : (s.writeStatus v).inflight = s.inflight := rfl
@[simp] theorem State.writeStatus_ie : (s.writeStatus v).ie = s.ie := rfl
@[simp] theorem State.writeStatus_detb : (s.writeStatus v).detb = s.detb := rfl
@[simp] theorem State.writeStatus_done : (s.writeStatus v).done = (s.done && !v.getLsbD 1) := rfl
@[simp] theorem State.writeStatus_err : (s.writeStatus v).err = (s.err && !v.getLsbD 2) := rfl
@[simp] theorem State.writeStatus_errcode : (s.writeStatus v).errcode = if v.getLsbD 2 then .noError else s.errcode := rfl
@[simp] theorem State.writeStatus_cmdovr : (s.writeStatus v).cmdovr = (s.cmdovr && !v.getLsbD 3) := rfl
@[simp] theorem State.writeStatus_busyacc : (s.writeStatus v).busyacc = (s.busyacc && !v.getLsbD 4) := rfl
@[simp] theorem State.writeStatus_prime : (s.writeStatus v).prime = s.prime := rfl
@[simp] theorem State.writeStatus_noinv : (s.writeStatus v).noinv = s.noinv := rfl
@[simp] theorem State.writeStatus_errcmd : (s.writeStatus v).errcmd = s.errcmd := rfl
@[simp] theorem State.writeStatus_porAsserted : (s.writeStatus v).porAsserted = s.porAsserted := rfl
@[simp] theorem State.writeStatus_events : (s.writeStatus v).events = s.events := rfl
@[simp] theorem State.writeStatus_entropy : (s.writeStatus v).entropy = s.entropy := rfl
@[simp] theorem State.writeStatus_response : (s.writeStatus v).response = s.response := rfl
@[simp] theorem State.writeStatus_reg (r : Reg) : (s.writeStatus v).reg r = s.reg r := rfl
@[simp] theorem State.writeStatus_marks (r : Reg) : (s.writeStatus v).marks r = s.marks r := rfl
@[simp] theorem State.writeStatus_busy : (s.writeStatus v).busy = s.busy := rfl
@[simp] theorem State.writeStatus_inflightWord : (s.writeStatus v).inflightWord = s.inflightWord := rfl
@[simp] theorem State.writeStatus_inflightDetb : (s.writeStatus v).inflightDetb = s.inflightDetb := rfl

end

/-! ### softReset -/

section
variable (s : State)

@[simp] theorem State.softReset_cfg : s.softReset.cfg = s.cfg := rfl
@[simp] theorem State.softReset_regs : s.softReset.regs = s.regs := rfl
@[simp] theorem State.softReset_inflight : s.softReset.inflight = none := rfl
@[simp] theorem State.softReset_ie : s.softReset.ie = false := rfl
@[simp] theorem State.softReset_detb : s.softReset.detb = false := rfl
@[simp] theorem State.softReset_done : s.softReset.done = false := rfl
@[simp] theorem State.softReset_err : s.softReset.err = false := rfl
@[simp] theorem State.softReset_errcode : s.softReset.errcode = .noError := rfl
@[simp] theorem State.softReset_cmdovr : s.softReset.cmdovr = false := rfl
@[simp] theorem State.softReset_busyacc : s.softReset.busyacc = false := rfl
@[simp] theorem State.softReset_prime : s.softReset.prime = false := rfl
@[simp] theorem State.softReset_noinv : s.softReset.noinv = false := rfl
@[simp] theorem State.softReset_errcmd : s.softReset.errcmd = 0 := rfl
@[simp] theorem State.softReset_porAsserted : s.softReset.porAsserted = s.porAsserted := rfl
@[simp] theorem State.softReset_events : s.softReset.events = s.events := rfl
@[simp] theorem State.softReset_entropy : s.softReset.entropy = s.entropy := rfl
@[simp] theorem State.softReset_response : s.softReset.response = s.response := rfl
@[simp] theorem State.softReset_reg (r : Reg) : s.softReset.reg r = s.reg r := rfl
@[simp] theorem State.softReset_marks (r : Reg) : s.softReset.marks r = s.marks r := rfl
@[simp] theorem State.softReset_busy : s.softReset.busy = false := rfl

end

/-! ### powerOnReset -/

section
variable (s : State) (b : Bool)

@[simp] theorem State.powerOnReset_cfg : (s.powerOnReset b).cfg = s.cfg := rfl
@[simp] theorem State.powerOnReset_regs : (s.powerOnReset b).regs = RegFile.all (OpReg.unwritten s.cfg.nlimb) := rfl
@[simp] theorem State.powerOnReset_inflight : (s.powerOnReset b).inflight = none := rfl
@[simp] theorem State.powerOnReset_ie : (s.powerOnReset b).ie = false := rfl
@[simp] theorem State.powerOnReset_detb : (s.powerOnReset b).detb = false := rfl
@[simp] theorem State.powerOnReset_done : (s.powerOnReset b).done = false := rfl
@[simp] theorem State.powerOnReset_err : (s.powerOnReset b).err = false := rfl
@[simp] theorem State.powerOnReset_errcode : (s.powerOnReset b).errcode = .noError := rfl
@[simp] theorem State.powerOnReset_cmdovr : (s.powerOnReset b).cmdovr = false := rfl
@[simp] theorem State.powerOnReset_busyacc : (s.powerOnReset b).busyacc = false := rfl
@[simp] theorem State.powerOnReset_prime : (s.powerOnReset b).prime = false := rfl
@[simp] theorem State.powerOnReset_noinv : (s.powerOnReset b).noinv = false := rfl
@[simp] theorem State.powerOnReset_errcmd : (s.powerOnReset b).errcmd = 0 := rfl
@[simp] theorem State.powerOnReset_porAsserted : (s.powerOnReset b).porAsserted = b := rfl
@[simp] theorem State.powerOnReset_events : (s.powerOnReset b).events = s.events := rfl
@[simp] theorem State.powerOnReset_entropy : (s.powerOnReset b).entropy = s.entropy := rfl
@[simp] theorem State.powerOnReset_response : (s.powerOnReset b).response = .idle := rfl
@[simp] theorem State.powerOnReset_busy : (s.powerOnReset b).busy = false := rfl

end

/-! ### setPrime -/

section
variable (s : State) (b : Bool)

@[simp] theorem State.setPrime_cfg : (s.setPrime b).cfg = s.cfg := rfl
@[simp] theorem State.setPrime_regs : (s.setPrime b).regs = s.regs := rfl
@[simp] theorem State.setPrime_inflight : (s.setPrime b).inflight = s.inflight := rfl
@[simp] theorem State.setPrime_ie : (s.setPrime b).ie = s.ie := rfl
@[simp] theorem State.setPrime_detb : (s.setPrime b).detb = s.detb := rfl
@[simp] theorem State.setPrime_done : (s.setPrime b).done = s.done := rfl
@[simp] theorem State.setPrime_err : (s.setPrime b).err = s.err := rfl
@[simp] theorem State.setPrime_errcode : (s.setPrime b).errcode = s.errcode := rfl
@[simp] theorem State.setPrime_cmdovr : (s.setPrime b).cmdovr = s.cmdovr := rfl
@[simp] theorem State.setPrime_busyacc : (s.setPrime b).busyacc = s.busyacc := rfl
@[simp] theorem State.setPrime_prime : (s.setPrime b).prime = b := rfl
@[simp] theorem State.setPrime_noinv : (s.setPrime b).noinv = s.noinv := rfl
@[simp] theorem State.setPrime_errcmd : (s.setPrime b).errcmd = s.errcmd := rfl
@[simp] theorem State.setPrime_porAsserted : (s.setPrime b).porAsserted = s.porAsserted := rfl
@[simp] theorem State.setPrime_events : (s.setPrime b).events = s.events := rfl
@[simp] theorem State.setPrime_entropy : (s.setPrime b).entropy = s.entropy := rfl
@[simp] theorem State.setPrime_response : (s.setPrime b).response = s.response := rfl
@[simp] theorem State.setPrime_reg (r : Reg) : (s.setPrime b).reg r = s.reg r := rfl
@[simp] theorem State.setPrime_marks (r : Reg) : (s.setPrime b).marks r = s.marks r := rfl
@[simp] theorem State.setPrime_busy : (s.setPrime b).busy = s.busy := rfl
@[simp] theorem State.setPrime_inflightWord : (s.setPrime b).inflightWord = s.inflightWord := rfl
@[simp] theorem State.setPrime_inflightDetb : (s.setPrime b).inflightDetb = s.inflightDetb := rfl

end

/-! ### setNoinv -/

section
variable (s : State) (b : Bool)

@[simp] theorem State.setNoinv_cfg : (s.setNoinv b).cfg = s.cfg := rfl
@[simp] theorem State.setNoinv_regs : (s.setNoinv b).regs = s.regs := rfl
@[simp] theorem State.setNoinv_inflight : (s.setNoinv b).inflight = s.inflight := rfl
@[simp] theorem State.setNoinv_ie : (s.setNoinv b).ie = s.ie := rfl
@[simp] theorem State.setNoinv_detb : (s.setNoinv b).detb = s.detb := rfl
@[simp] theorem State.setNoinv_done : (s.setNoinv b).done = s.done := rfl
@[simp] theorem State.setNoinv_err : (s.setNoinv b).err = s.err := rfl
@[simp] theorem State.setNoinv_errcode : (s.setNoinv b).errcode = s.errcode := rfl
@[simp] theorem State.setNoinv_cmdovr : (s.setNoinv b).cmdovr = s.cmdovr := rfl
@[simp] theorem State.setNoinv_busyacc : (s.setNoinv b).busyacc = s.busyacc := rfl
@[simp] theorem State.setNoinv_prime : (s.setNoinv b).prime = s.prime := rfl
@[simp] theorem State.setNoinv_noinv : (s.setNoinv b).noinv = b := rfl
@[simp] theorem State.setNoinv_errcmd : (s.setNoinv b).errcmd = s.errcmd := rfl
@[simp] theorem State.setNoinv_porAsserted : (s.setNoinv b).porAsserted = s.porAsserted := rfl
@[simp] theorem State.setNoinv_events : (s.setNoinv b).events = s.events := rfl
@[simp] theorem State.setNoinv_entropy : (s.setNoinv b).entropy = s.entropy := rfl
@[simp] theorem State.setNoinv_response : (s.setNoinv b).response = s.response := rfl
@[simp] theorem State.setNoinv_reg (r : Reg) : (s.setNoinv b).reg r = s.reg r := rfl
@[simp] theorem State.setNoinv_marks (r : Reg) : (s.setNoinv b).marks r = s.marks r := rfl
@[simp] theorem State.setNoinv_busy : (s.setNoinv b).busy = s.busy := rfl
@[simp] theorem State.setNoinv_inflightWord : (s.setNoinv b).inflightWord = s.inflightWord := rfl
@[simp] theorem State.setNoinv_inflightDetb : (s.setNoinv b).inflightDetb = s.inflightDetb := rfl

end

/-! ### completeTest -/

section
variable (s : State) (v : Bool) (n : Nat)

@[simp] theorem State.completeTest_cfg : (s.completeTest v n).cfg = s.cfg := rfl
@[simp] theorem State.completeTest_regs : (s.completeTest v n).regs = s.regs := rfl
@[simp] theorem State.completeTest_inflight : (s.completeTest v n).inflight = none := rfl
@[simp] theorem State.completeTest_ie : (s.completeTest v n).ie = s.ie := rfl
@[simp] theorem State.completeTest_detb : (s.completeTest v n).detb = s.detb := rfl
@[simp] theorem State.completeTest_done : (s.completeTest v n).done = true := rfl
@[simp] theorem State.completeTest_err : (s.completeTest v n).err = s.err := rfl
@[simp] theorem State.completeTest_errcode : (s.completeTest v n).errcode = s.errcode := rfl
@[simp] theorem State.completeTest_cmdovr : (s.completeTest v n).cmdovr = s.cmdovr := rfl
@[simp] theorem State.completeTest_busyacc : (s.completeTest v n).busyacc = s.busyacc := rfl
@[simp] theorem State.completeTest_prime : (s.completeTest v n).prime = v := rfl
@[simp] theorem State.completeTest_noinv : (s.completeTest v n).noinv = s.noinv := rfl
@[simp] theorem State.completeTest_errcmd : (s.completeTest v n).errcmd = s.errcmd := rfl
@[simp] theorem State.completeTest_porAsserted : (s.completeTest v n).porAsserted = s.porAsserted := rfl
@[simp] theorem State.completeTest_events : (s.completeTest v n).events = s.events := rfl
@[simp] theorem State.completeTest_entropy : (s.completeTest v n).entropy = s.entropy.drop n := rfl
@[simp] theorem State.completeTest_response : (s.completeTest v n).response = s.response := rfl
@[simp] theorem State.completeTest_reg (r : Reg) : (s.completeTest v n).reg r = s.reg r := rfl
@[simp] theorem State.completeTest_marks (r : Reg) : (s.completeTest v n).marks r = s.marks r := rfl
@[simp] theorem State.completeTest_busy : (s.completeTest v n).busy = false := rfl

end

/-! ### dequeue -/

section
variable (s : State) (rest : List Event)

@[simp] theorem State.dequeue_cfg : (s.dequeue rest).cfg = s.cfg := rfl
@[simp] theorem State.dequeue_regs : (s.dequeue rest).regs = s.regs := rfl
@[simp] theorem State.dequeue_inflight : (s.dequeue rest).inflight = s.inflight := rfl
@[simp] theorem State.dequeue_ie : (s.dequeue rest).ie = s.ie := rfl
@[simp] theorem State.dequeue_detb : (s.dequeue rest).detb = s.detb := rfl
@[simp] theorem State.dequeue_done : (s.dequeue rest).done = s.done := rfl
@[simp] theorem State.dequeue_err : (s.dequeue rest).err = s.err := rfl
@[simp] theorem State.dequeue_errcode : (s.dequeue rest).errcode = s.errcode := rfl
@[simp] theorem State.dequeue_cmdovr : (s.dequeue rest).cmdovr = s.cmdovr := rfl
@[simp] theorem State.dequeue_busyacc : (s.dequeue rest).busyacc = s.busyacc := rfl
@[simp] theorem State.dequeue_prime : (s.dequeue rest).prime = s.prime := rfl
@[simp] theorem State.dequeue_noinv : (s.dequeue rest).noinv = s.noinv := rfl
@[simp] theorem State.dequeue_errcmd : (s.dequeue rest).errcmd = s.errcmd := rfl
@[simp] theorem State.dequeue_porAsserted : (s.dequeue rest).porAsserted = s.porAsserted := rfl
@[simp] theorem State.dequeue_events : (s.dequeue rest).events = rest := rfl
@[simp] theorem State.dequeue_entropy : (s.dequeue rest).entropy = s.entropy := rfl
@[simp] theorem State.dequeue_response : (s.dequeue rest).response = s.response := rfl
@[simp] theorem State.dequeue_reg (r : Reg) : (s.dequeue rest).reg r = s.reg r := rfl
@[simp] theorem State.dequeue_marks (r : Reg) : (s.dequeue rest).marks r = s.marks r := rfl
@[simp] theorem State.dequeue_busy : (s.dequeue rest).busy = s.busy := rfl
@[simp] theorem State.dequeue_inflightWord : (s.dequeue rest).inflightWord = s.inflightWord := rfl
@[simp] theorem State.dequeue_inflightDetb : (s.dequeue rest).inflightDetb = s.inflightDetb := rfl

end

/-! ### answer -/

section
variable (s : State) (a : BusResponse)

@[simp] theorem State.answer_cfg : (s.answer a).cfg = s.cfg := rfl
@[simp] theorem State.answer_regs : (s.answer a).regs = s.regs := rfl
@[simp] theorem State.answer_inflight : (s.answer a).inflight = s.inflight := rfl
@[simp] theorem State.answer_ie : (s.answer a).ie = s.ie := rfl
@[simp] theorem State.answer_detb : (s.answer a).detb = s.detb := rfl
@[simp] theorem State.answer_done : (s.answer a).done = s.done := rfl
@[simp] theorem State.answer_err : (s.answer a).err = s.err := rfl
@[simp] theorem State.answer_errcode : (s.answer a).errcode = s.errcode := rfl
@[simp] theorem State.answer_cmdovr : (s.answer a).cmdovr = s.cmdovr := rfl
@[simp] theorem State.answer_busyacc : (s.answer a).busyacc = s.busyacc := rfl
@[simp] theorem State.answer_prime : (s.answer a).prime = s.prime := rfl
@[simp] theorem State.answer_noinv : (s.answer a).noinv = s.noinv := rfl
@[simp] theorem State.answer_errcmd : (s.answer a).errcmd = s.errcmd := rfl
@[simp] theorem State.answer_porAsserted : (s.answer a).porAsserted = s.porAsserted := rfl
@[simp] theorem State.answer_events : (s.answer a).events = s.events := rfl
@[simp] theorem State.answer_entropy : (s.answer a).entropy = s.entropy := rfl
@[simp] theorem State.answer_response : (s.answer a).response = a := rfl
@[simp] theorem State.answer_reg (r : Reg) : (s.answer a).reg r = s.reg r := rfl
@[simp] theorem State.answer_marks (r : Reg) : (s.answer a).marks r = s.marks r := rfl
@[simp] theorem State.answer_busy : (s.answer a).busy = s.busy := rfl
@[simp] theorem State.answer_inflightWord : (s.answer a).inflightWord = s.inflightWord := rfl
@[simp] theorem State.answer_inflightDetb : (s.answer a).inflightDetb = s.inflightDetb := rfl

end

/-! ### placeWord -/

section
variable (s : State) (w : Word)

@[simp] theorem State.placeWord_cfg : (s.placeWord w).cfg = s.cfg := rfl
@[simp] theorem State.placeWord_regs : (s.placeWord w).regs = s.regs := rfl
@[simp] theorem State.placeWord_inflight : (s.placeWord w).inflight = some { word := w, detb := s.detb } := rfl
@[simp] theorem State.placeWord_ie : (s.placeWord w).ie = s.ie := rfl
@[simp] theorem State.placeWord_detb : (s.placeWord w).detb = s.detb := rfl
@[simp] theorem State.placeWord_done : (s.placeWord w).done = s.done := rfl
@[simp] theorem State.placeWord_err : (s.placeWord w).err = s.err := rfl
@[simp] theorem State.placeWord_errcode : (s.placeWord w).errcode = s.errcode := rfl
@[simp] theorem State.placeWord_cmdovr : (s.placeWord w).cmdovr = s.cmdovr := rfl
@[simp] theorem State.placeWord_busyacc : (s.placeWord w).busyacc = s.busyacc := rfl
@[simp] theorem State.placeWord_prime : (s.placeWord w).prime = s.prime := rfl
@[simp] theorem State.placeWord_noinv : (s.placeWord w).noinv = s.noinv := rfl
@[simp] theorem State.placeWord_errcmd : (s.placeWord w).errcmd = s.errcmd := rfl
@[simp] theorem State.placeWord_porAsserted : (s.placeWord w).porAsserted = s.porAsserted := rfl
@[simp] theorem State.placeWord_events : (s.placeWord w).events = .engine :: s.events := rfl
@[simp] theorem State.placeWord_entropy : (s.placeWord w).entropy = s.entropy := rfl
@[simp] theorem State.placeWord_response : (s.placeWord w).response = s.response := rfl
@[simp] theorem State.placeWord_reg (r : Reg) : (s.placeWord w).reg r = s.reg r := rfl
@[simp] theorem State.placeWord_marks (r : Reg) : (s.placeWord w).marks r = s.marks r := rfl
@[simp] theorem State.placeWord_busy : (s.placeWord w).busy = true := rfl

end

end Sys2Proof.Machine
end

