-- ==== Sys2Proof/Laws/Ops.lean ====
section
/-! SUPPORT. The laws of the shared operations of Machine/Ops.lean: the register file, its limbs, and the two ways a command
ends. -/

namespace Sys2Proof.Machine

/-! ### The register file -/

@[simp] theorem RegFile.get_set_same (f : RegFile) (i : Reg) (r : OpReg) : (f.set i r).get i = r := by
  fin_cases i <;> rfl

theorem RegFile.get_set_ne (f : RegFile) {i k : Reg} (r : OpReg) (h : k ≠ i) : (f.set i r).get k = f.get k := by
  fin_cases i <;> fin_cases k <;> first | rfl | exact absurd rfl h

@[simp] theorem RegFile.get_all (r : OpReg) (i : Reg) : (RegFile.all r).get i = r := by
  fin_cases i <;> rfl

/-- Two register files with the same entries are the same. -/
theorem RegFile.ext_get {f g : RegFile} (h : ∀ i, f.get i = g.get i) : f = g := by
  obtain ⟨_, _, _, _, _, _, _, _⟩ := f
  obtain ⟨_, _, _, _, _, _, _, _⟩ := g
  simpa [RegFile.get] using
    And.intro (h 0) (And.intro (h 1) (And.intro (h 2) (And.intro (h 3) (And.intro (h 4) (And.intro (h 5)
      (And.intro (h 6) (h 7)))))))

@[simp] theorem State.writeReg_reg_same (s : State) (i : Reg) (v : Nat) : (s.writeReg i v).reg i = v := by
  simp [State.reg]

@[simp] theorem State.writeReg_marks_same (s : State) (i : Reg) (v : Nat) :
    (s.writeReg i v).marks i = List.replicate s.cfg.nlimb true := by
  simp [State.marks]

theorem State.writeReg_get_ne (s : State) {i k : Reg} (v : Nat) (h : k ≠ i) :
    (s.writeReg i v).regs.get k = s.regs.get k := RegFile.get_set_ne _ _ h

/-- A result write changes the named register and no other (R22, R23). -/
theorem State.writeReg_writesOnly (s : State) (i : Reg) (v : Nat) : WritesOnly i v s (s.writeReg i v) :=
  ⟨by simp, by simp, fun _ h => s.writeReg_get_ne v h⟩

@[simp] theorem State.writeLimb_reg_same (s : State) (i : Reg) (j : Nat) (v : Word) :
    (s.writeLimb i j v).reg i = withLimb (s.reg i) j v := by
  simp [State.reg]

@[simp] theorem State.writeLimb_marks_same (s : State) (i : Reg) (j : Nat) (v : Word) :
    (s.writeLimb i j v).marks i = (s.marks i).set j true := by
  simp [State.marks]

theorem State.writeLimb_get_ne (s : State) {i k : Reg} (j : Nat) (v : Word) (h : k ≠ i) :
    (s.writeLimb i j v).regs.get k = s.regs.get k := RegFile.get_set_ne _ _ h

/-! ### Limbs (R21, R62) -/

theorem limbOf_getLsbD (x j k : Nat) (h : k < 32) : (limbOf x j).getLsbD k = x.testBit (32 * j + k) := by
  rw [limbOf, BitVec.getLsbD_ofNat, Nat.testBit_div_two_pow, Nat.add_comm]
  simp [h]

/-- The bits of a value after one limb of it is replaced. -/
theorem withLimb_testBit (x j : Nat) (v : Word) (k : Nat) :
    (withLimb x j v).testBit k =
      if k < 32 * j then x.testBit k else if k < 32 * (j + 1) then v.getLsbD (k - 32 * j) else x.testBit k := by
  have hform : withLimb x j v = 2 ^ (32 * j) * (2 ^ 32 * (x / 2 ^ (32 * (j + 1))) + v.toNat) + x % 2 ^ (32 * j) := by
    rw [withLimb, show 32 * (j + 1) = 32 * j + 32 by ring, pow_add]
    ring
  rw [hform, Nat.testBit_two_pow_mul_add _ (Nat.mod_lt _ (by positivity))]
  by_cases h : k < 32 * j
  · simp [h, Nat.testBit_mod_two_pow]
  · rw [if_neg h, if_neg h, Nat.testBit_two_pow_mul_add _ v.isLt, BitVec.testBit_toNat]
    by_cases h2 : k < 32 * (j + 1)
    · rw [if_pos h2, if_pos (by omega)]
    · rw [if_neg h2, if_neg (by omega), Nat.testBit_div_two_pow]
      congr 1
      omega

theorem limbOf_withLimb_same (x j : Nat) (v : Word) : limbOf (withLimb x j v) j = v := by
  apply BitVec.eq_of_getLsbD_eq
  intro k hk
  rw [limbOf_getLsbD _ _ _ hk, withLimb_testBit, if_neg (by omega), if_pos (by omega)]
  congr 1
  omega

theorem limbOf_withLimb_ne (x : Nat) {j k : Nat} (v : Word) (h : k ≠ j) : limbOf (withLimb x j v) k = limbOf x k := by
  apply BitVec.eq_of_getLsbD_eq
  intro b hb
  rw [limbOf_getLsbD _ _ _ hb, limbOf_getLsbD _ _ _ hb, withLimb_testBit]
  split
  · rfl
  · rw [if_neg (by omega)]

/-- Replacing a limb below limb n keeps a value below 2 ^ (32 n). -/
theorem withLimb_lt (x j n : Nat) (v : Word) (hx : x < 2 ^ (32 * n)) (hj : j < n) : withLimb x j v < 2 ^ (32 * n) := by
  apply Nat.lt_pow_two_of_testBit
  intro k hk
  rw [withLimb_testBit, if_neg (by omega), if_neg (by omega)]
  exact Nat.testBit_lt_two_pow (lt_of_lt_of_le hx (Nat.pow_le_pow_right (by norm_num) hk))

/-! ### The register file keeps its form (R20, R23) -/

theorem State.writeReg_fits {s : State} (h : RegsFit s) (i : Reg) {v : Nat} (hv : v < 2 ^ s.cfg.nbits) :
    RegsFit (s.writeReg i v) := by
  intro r
  by_cases hr : r = i
  · subst hr
    simp [hv]
  · rw [State.reg, State.marks, s.writeReg_get_ne v hr]
    exact h r

theorem State.writeLimb_fits {s : State} (h : RegsFit s) (i : Reg) {j : Nat} (v : Word) (hj : j < s.cfg.nlimb) :
    RegsFit (s.writeLimb i j v) := by
  intro r
  by_cases hr : r = i
  · subst hr
    rw [State.writeLimb_reg_same, State.writeLimb_marks_same, State.writeLimb_cfg, List.length_set]
    exact ⟨withLimb_lt _ _ _ _ (h r).1 hj, (h r).2⟩
  · rw [State.reg, State.marks, s.writeLimb_get_ne j v hr]
    exact h r

theorem State.powerOnReset_fits (s : State) (b : Bool) : RegsFit (s.powerOnReset b) := by
  intro r
  have e : (s.powerOnReset b).regs.get r = OpReg.unwritten s.cfg.nlimb := RegFile.get_all _ _
  rw [State.reg, State.marks, e]
  exact ⟨Nat.two_pow_pos _, List.length_replicate⟩

/-! ### States that agree on what has been written (R23) -/

/-- A register whose every limb is written has the same value in both. -/
theorem AgreeOnWritten.reg_eq {s t : State} (h : AgreeOnWritten s t) (hs : RegsFit s) (ht : RegsFit t) {r : Reg}
    (hw : s.regWritten r = true) : t.reg r = s.reg r := by
  have hc : t.cfg = s.cfg := by rw [h.1]
  have hlen := (hs r).2
  apply Nat.eq_of_testBit_eq
  intro k
  by_cases hk : k < s.cfg.nbits
  · have hj : k / 32 < s.cfg.nlimb := by unfold Config.nbits at hk; omega
    have hwr : s.limbWritten r (k / 32) = true := by
      rw [State.limbWritten, List.getD_eq_getElem _ _ (by omega)]
      exact List.all_eq_true.mp hw _ (List.getElem_mem _)
    have hb := congrArg (fun x => x.getLsbD (k % 32)) ((h.2 r).2 _ hwr)
    simpa only [limbOf_getLsbD _ _ _ (Nat.mod_lt k (by norm_num : 0 < 32)), Nat.div_add_mod] using hb
  · have hge : 2 ^ s.cfg.nbits ≤ 2 ^ k := Nat.pow_le_pow_right (by norm_num) (by omega)
    rw [Nat.testBit_lt_two_pow (lt_of_lt_of_le (by simpa [hc] using (ht r).1) hge),
      Nat.testBit_lt_two_pow (lt_of_lt_of_le (hs r).1 hge)]

/-- The same result write in both keeps the agreement. -/
theorem AgreeOnWritten.writeReg {s t : State} (h : AgreeOnWritten s t) (i : Reg) (v : Nat) :
    AgreeOnWritten (s.writeReg i v) (t.writeReg i v) := by
  obtain ⟨h1, h2⟩ := h
  obtain ⟨g, rfl⟩ : ∃ g, t = { s with regs := g } := ⟨_, h1⟩
  refine ⟨rfl, fun r => ?_⟩
  by_cases hr : r = i
  · subst hr
    simp
  · simp only [State.marks, State.reg, State.limbWritten, State.writeReg_get_ne _ _ hr]
    exact h2 r

/-- The same limb write in both keeps the agreement. -/
theorem AgreeOnWritten.writeLimb {s t : State} (h : AgreeOnWritten s t) (i : Reg) (j : Nat) (v : Word) :
    AgreeOnWritten (s.writeLimb i j v) (t.writeLimb i j v) := by
  obtain ⟨h1, h2⟩ := h
  obtain ⟨g, rfl⟩ : ∃ g, t = { s with regs := g } := ⟨_, h1⟩
  refine ⟨rfl, fun r => ?_⟩
  by_cases hr : r = i
  · subst hr
    refine ⟨by rw [State.writeLimb_marks_same, State.writeLimb_marks_same, (h2 r).1], fun k hk => ?_⟩
    rw [State.writeLimb_reg_same, State.writeLimb_reg_same]
    by_cases hkj : k = j
    · subst hkj
      rw [limbOf_withLimb_same, limbOf_withLimb_same]
    · rw [limbOf_withLimb_ne _ _ hkj, limbOf_withLimb_ne _ _ hkj]
      refine (h2 r).2 k ?_
      rwa [State.limbWritten, State.writeLimb_marks_same, List.getD_eq_getElem?_getD, List.getElem?_set_ne (Ne.symm hkj),
        ← List.getD_eq_getElem?_getD] at hk
  · simp only [State.marks, State.reg, State.limbWritten, State.writeLimb_get_ne _ _ _ hr]
    exact h2 r

/-! ### The two ways a command ends (R49, R50) -/

theorem State.complete_succeeds (s : State) : Succeeds s s.complete := by
  simp [Succeeds, SameHostSide]

theorem State.raiseError_fails (s : State) (c : ErrCode) : Fails c s (s.raiseError c) := by
  simp [Fails, SameHostSide]

/-- A command that writes one register and completes. -/
theorem State.writeReg_complete_spec (s : State) (i : Reg) (v : Nat) :
    Succeeds s (s.writeReg i v).complete ∧ WritesOnly i v s (s.writeReg i v).complete ∧
      SameVerdicts s (s.writeReg i v).complete := by
  refine ⟨by simp [Succeeds, SameHostSide], ?_, by simp [SameVerdicts]⟩
  exact ⟨by simp, by simp, fun _ h => s.writeReg_get_ne v h⟩

/-- An MRTEST that completes with a verdict. -/
theorem State.completeTest_spec (s : State) (v : Bool) (n : Nat) :
    Succeeds s (s.completeTest v n) ∧ (s.completeTest v n).regs = s.regs ∧ (s.completeTest v n).prime = v ∧
      (s.completeTest v n).noinv = s.noinv ∧ (s.completeTest v n).entropy = s.entropy.drop n := by
  simp [Succeeds, SameHostSide]

end Sys2Proof.Machine
end

