-- ==== Sys2Proof/Laws/Exec.lean ====
section
/-! SUPPORT. Every way a command can end, said once for exec: every command answers a next state, and that state is one of
five. Frames, invariants and the flag rules follow from this list without unfolding a meaning again. -/

namespace Sys2Proof.Machine

/-- The states command i can leave from s. -/
inductive Ending (i : Instr) (s : State) : State → Prop
  /-- A result write to RD (R49); NOINV changes only by MODINV. -/
  | wrote (rd : Reg) (v : Nat) (nv : Bool) (hd : destReg i = some rd) (hf : firstError s i = none)
      (hn : nv = s.noinv ∨ nv = false ∧ ∃ ra rm, i = .modinv rd ra rm)
      (hv : s.cfg.Legal → RegsFit s → v < 2 ^ s.cfg.nbits) :
      Ending i s ((s.writeReg rd v).setNoinv nv).complete
  /-- NOP, or MODINV without an inverse. -/
  | kept (nv : Bool) (hf : firstError s i = none)
      (hn : i = .nop ∧ nv = s.noinv ∨ nv = true ∧ ∃ rd ra rm, i = .modinv rd ra rm) :
      Ending i s (s.setNoinv nv).complete
  /-- An MRTEST verdict (R127). -/
  | verdict (p : Bool) (used : Nat) (hf : firstError s i = none) (hi : ∃ ra rb k, i = .mrtest ra rb k) :
      Ending i s (s.completeTest p used)
  /-- An error completion (R50, R300). -/
  | failed (c : ErrCode) (p nv : Bool) (hf : firstError s i = some c)
      (hp : (c ≠ .badBase ∧ p = s.prime) ∨ c = .badBase ∧ p = false ∧ ∃ ra rb k, i = .mrtest ra rb k)
      (hn : ((∀ rd ra rm, i ≠ .modinv rd ra rm) ∧ nv = s.noinv) ∨
        (∃ rd ra rm, i = .modinv rd ra rm) ∧ c = .badModulus ∧ nv = false) :
      Ending i s (((s.setPrime p).setNoinv nv).raiseError c)
  /-- An MRTEST in entropy mode that waits for an answer (R124). -/
  | waiting (hf : firstError s i = none)
      (hi : ∃ ra rb k, i = .mrtest ra rb k ∧ s.inflightDetb = false ∧ 5 ≤ s.reg ra) :
      Ending i s s

/-- A result write that leaves NOINV. -/
theorem Ending.wroteOnly {i : Instr} {s : State} (rd : Reg) (v : Nat) (hd : destReg i = some rd)
    (hf : firstError s i = none) (hv : s.cfg.Legal → RegsFit s → v < 2 ^ s.cfg.nbits) :
    Ending i s (s.writeReg rd v).complete :=
  Ending.wrote rd v s.noinv hd hf (Or.inl rfl) hv

/-- An error completion that leaves PRIME and NOINV. -/
theorem Ending.failedOnly {i : Instr} {s : State} (c : ErrCode) (hf : firstError s i = some c) (hc : c ≠ .badBase)
    (hi : ∀ rd ra rm, i ≠ .modinv rd ra rm) : Ending i s (s.raiseError c) :=
  Ending.failed c s.prime s.noinv hf (Or.inl ⟨hc, rfl⟩) (Or.inl ⟨hi, rfl⟩)

theorem oddModulus_iff (m : Nat) : oddModulus m = true ↔ m % 2 = 1 := by simp [oddModulus]

/-- A result below a register's value is below 2^NBITS. -/
theorem RegsFit.lt_of_le {s : State} (h : RegsFit s) {v : Nat} {r : Reg} (hv : v ≤ s.reg r) : v < 2 ^ s.cfg.nbits :=
  lt_of_le_of_lt hv (h r).1

theorem execModmul_ending (rd ra rb rm : Reg) (s : State) :
    ∃ t, execModmul rd ra rb rm s = .next t ∧ Ending (.modmul rd ra rb rm) s t := by
  unfold execModmul
  by_cases h : s.reg rm % 2 = 1
  · refine ⟨_, if_pos ((oddModulus_iff _).mpr h), Ending.wroteOnly rd _ rfl (by simp [firstError, h]) ?_⟩
    exact fun _ hr => hr.lt_of_le (Nat.mod_lt _ (by omega)).le
  · exact ⟨_, by simp [oddModulus_iff, h],
      Ending.failedOnly .badModulus (by simp [firstError]; omega) (by decide) (by simp)⟩

theorem modExp_lt (a e m : Nat) (hm : 0 < m) : modExp a e m < m := by
  rw [modExp_eq a e m hm]
  exact Nat.mod_lt _ hm

theorem execModexp_ending (rd ra rb rm : Reg) (s : State) :
    ∃ t, execModexp rd ra rb rm s = .next t ∧ Ending (.modexp rd ra rb rm) s t := by
  unfold execModexp
  by_cases h : s.reg rm % 2 = 1
  · refine ⟨_, if_pos ((oddModulus_iff _).mpr h), Ending.wroteOnly rd _ rfl (by simp [firstError, h]) ?_⟩
    exact fun _ hr => hr.lt_of_le (modExp_lt _ _ _ (by omega)).le
  · exact ⟨_, by simp [oddModulus_iff, h],
      Ending.failedOnly .badModulus (by simp [firstError]; omega) (by decide) (by simp)⟩

theorem execCrypt_ending (rd ra rb rm : Reg) (s : State) :
    ∃ t, execCrypt rd ra rb rm s = .next t ∧ Ending (.crypt rd ra rb rm) s t := by
  unfold execCrypt
  by_cases h : s.reg rm % 2 = 1
  · by_cases h2 : s.reg ra < s.reg rm
    · refine ⟨_, (if_pos ((oddModulus_iff _).mpr h)).trans (if_pos h2),
        Ending.wroteOnly rd _ rfl (by simp [firstError, h, h2]) ?_⟩
      exact fun _ hr => hr.lt_of_le (modExp_lt _ _ _ (by omega)).le
    · exact ⟨_, by simp [oddModulus_iff, h, h2],
        Ending.failedOnly .invalidRange (by simp [firstError, h]; omega) (by decide) (by simp)⟩
  · exact ⟨_, by simp [oddModulus_iff, h],
      Ending.failedOnly .badModulus (by simp [firstError]; omega) (by decide) (by simp)⟩

theorem execModinv_ending (rd ra rm : Reg) (s : State) :
    ∃ t, execModinv rd ra rm s = .next t ∧ Ending (.modinv rd ra rm) s t := by
  unfold execModinv
  by_cases h : s.reg rm = 0
  · exact ⟨_, if_pos h, Ending.failed .badModulus s.prime false (by simp [firstError, h])
      (Or.inl ⟨by decide, rfl⟩) (Or.inr ⟨⟨_, _, _, rfl⟩, rfl, rfl⟩)⟩
  · simp only [if_neg h]
    rcases modInverse_spec (s.reg ra) (s.reg rm) (by omega) with ⟨h1, -⟩ | ⟨t, h1, -, ht, -⟩
    · exact ⟨_, by rw [h1], Ending.kept true (by simp [firstError, h]) (Or.inr ⟨rfl, _, _, _, rfl⟩)⟩
    · exact ⟨_, by rw [h1], Ending.wrote rd t false rfl (by simp [firstError, h]) (Or.inr ⟨rfl, _, _, rfl⟩)
        fun _ hr => hr.lt_of_le ht.le⟩

/-! ### Miller-Rabin -/

/-- The up-front check, as a statement about the registers of the rounds it covers (R125). -/
theorem State.detBasesOk_iff (s : State) (n : Nat) (rb : Reg) (k : Nat) :
    s.detBasesOk n rb k = true ↔
      ∀ i, i < min k 8 → 2 ≤ s.reg (baseReg rb i) ∧ s.reg (baseReg rb i) ≤ n - 2 := by
  simp [State.detBasesOk, State.detBases, baseInRange]

/-- n - 1 = 2 ^ r * d with d odd fixes r and d. -/
theorem two_pow_mul_odd_unique {r d r' d' : Nat} (hd : d % 2 = 1) (hd' : d' % 2 = 1)
    (h : 2 ^ r * d = 2 ^ r' * d') : r = r' ∧ d = d' := by
  have aux : ∀ {r d r' d' : Nat}, d' % 2 = 1 → 2 ^ r * d = 2 ^ r' * d' → r ≤ r' := by
    intro r d r' d' hd' h
    by_contra hlt
    have hr : 2 ^ r = 2 ^ r' * (2 * 2 ^ (r - r' - 1)) := by
      rw [← pow_succ', ← pow_add]
      congr 1
      omega
    rw [hr, mul_assoc] at h
    have := Nat.eq_of_mul_eq_mul_left (by positivity) h
    rw [mul_assoc] at this
    omega
  obtain rfl : r = r' := le_antisymm (aux hd' h) (aux hd h.symm)
  exact ⟨rfl, Nat.eq_of_mul_eq_mul_left (by positivity) h⟩

/-- A round with the split of n accepts exactly the bases that accept n (R121, R122). -/
theorem mrRound_split_iff (n a : Nat) (hn : 3 ≤ n) (ho : n % 2 = 1) :
    mrRound n (split n).1 (split n).2 a = true ↔ BaseAccepts n a := by
  obtain ⟨hd, hs, hr⟩ := split_spec n (by omega)
  rw [mrRound_iff n _ _ a (by omega) (hr ho)]
  constructor
  · intro h r d he hodd
    obtain ⟨h1, h2⟩ := two_pow_mul_odd_unique hd hodd (hs.trans he)
    rw [h1, h2] at h
    exact h
  · intro h
    exact h _ _ hs.symm hd

/-- Deterministic rounds never wait: there is a base for every round. -/
theorem runRounds_detBases (n r d k : Nat) (rb : Reg) (s : State) :
    runRounds n r d k (s.detBases rb k) 0 ≠ .waiting := by
  intro h
  rcases runRounds_spec n r d k (s.detBases rb k) 0 with ⟨h1, -⟩ | ⟨_, _, -, -, -, -, h1⟩ | ⟨-, h1, -⟩
  · rw [h1] at h; cases h
  · rw [h1] at h; cases h
  · simp [State.detBases] at h1

/-- MRTEST on a candidate that needs no round (R120). -/
theorem execMrtest_trivial (ra rb : Reg) (k : BitVec 8) (s : State) (hk : k ≠ 0)
    (h : s.reg ra ≤ 3 ∨ s.reg ra % 2 = 0) :
    execMrtest ra rb k s = .next (s.completeTest (decide (s.reg ra = 2 ∨ s.reg ra = 3)) 0) := by
  unfold execMrtest
  simp only [if_neg hk]
  by_cases h1 : s.reg ra ≤ 1
  · rw [if_pos h1]
    congr 2
    simp; omega
  · rw [if_neg h1]
    by_cases h2 : s.reg ra = 2 ∨ s.reg ra = 3
    · rw [if_pos h2]
      simp [h2]
    · rw [if_neg h2, if_pos (by omega)]
      simp [h2]

/-- MRTEST on an odd candidate of at least 5 runs its rounds in the mode captured at acceptance (R120). -/
theorem execMrtest_odd (ra rb : Reg) (k : BitVec 8) (s : State) (hk : k ≠ 0) (h5 : 5 ≤ s.reg ra)
    (ho : s.reg ra % 2 = 1) :
    execMrtest ra rb k s =
      if s.inflightDetb then runDeterministic (s.reg ra) rb k.toNat s else runEntropy (s.reg ra) k.toNat s := by
  unfold execMrtest
  simp only [if_neg hk]
  rw [if_neg (by omega), if_neg (by omega), if_neg (by omega)]

theorem firstError_mrtest_odd (ra rb : Reg) (k : BitVec 8) (s : State) (hk : k ≠ 0) (h5 : 5 ≤ s.reg ra)
    (ho : s.reg ra % 2 = 1) (hd : s.inflightDetb = true) :
    firstError s (.mrtest ra rb k) = if s.detBasesOk (s.reg ra) rb k.toNat then none else some .badBase := by
  have : (baseRegs ra rb k s).any (fun r => s.reg r < 2 || s.reg ra - 2 < s.reg r) =
      !s.detBasesOk (s.reg ra) rb k.toNat := by
    rw [Bool.eq_iff_iff, Bool.not_eq_true', ← Bool.not_eq_true, State.detBasesOk_iff]
    simp only [baseRegs, hd, h5, ho, and_self, if_true, List.any_map, List.any_eq_true, List.mem_range,
      Function.comp, Bool.or_eq_true, decide_eq_true_eq]
    push Not
    refine exists_congr fun i => and_congr_right fun _ => ?_
    omega
  simp only [firstError, if_neg hk, this]
  cases s.detBasesOk (s.reg ra) rb k.toNat <;> rfl

theorem firstError_mrtest_noBases (ra rb : Reg) (k : BitVec 8) (s : State) (hk : k ≠ 0)
    (h : baseRegs ra rb k s = []) : firstError s (.mrtest ra rb k) = none := by
  simp only [firstError, if_neg hk, h, List.any_nil, Bool.false_eq_true, if_false]

theorem execMrtest_ending (ra rb : Reg) (k : BitVec 8) (s : State) :
    ∃ t, execMrtest ra rb k s = .next t ∧ Ending (.mrtest ra rb k) s t := by
  by_cases hk : k = 0
  · exact ⟨_, by simp [execMrtest, hk], Ending.failedOnly .illegalCmd (by simp [firstError, hk]) (by decide) (by simp)⟩
  by_cases htriv : s.reg ra ≤ 3 ∨ s.reg ra % 2 = 0
  · refine ⟨_, execMrtest_trivial ra rb k s hk htriv,
      Ending.verdict _ _ (firstError_mrtest_noBases ra rb k s hk ?_) ⟨_, _, _, rfl⟩⟩
    rw [baseRegs, if_neg (by omega)]
  rw [execMrtest_odd ra rb k s hk (by omega) (by omega)]
  cases hd : s.inflightDetb with
  | true =>
    have hfe := firstError_mrtest_odd ra rb k s hk (by omega) (by omega) hd
    rw [if_pos rfl, runDeterministic]
    cases hok : s.detBasesOk (s.reg ra) rb k.toNat with
    | false =>
      exact ⟨_, if_neg (by simp), Ending.failed .badBase false s.noinv (by simpa [hok] using hfe)
        (Or.inr ⟨rfl, rfl, _, _, _, rfl⟩) (Or.inl ⟨by simp, rfl⟩)⟩
    | true =>
      rw [if_pos rfl]
      cases hr : runRounds (s.reg ra) (split (s.reg ra)).1 (split (s.reg ra)).2 k.toNat (s.detBases rb k.toNat) 0 with
      | waiting => exact absurd hr (runRounds_detBases _ _ _ _ _ _)
      | verdict p u => exact ⟨_, rfl, Ending.verdict p 0 (by simpa [hok] using hfe) ⟨_, _, _, rfl⟩⟩
  | false =>
    have hfe : firstError s (.mrtest ra rb k) = none :=
      firstError_mrtest_noBases ra rb k s hk (by simp [baseRegs, hd])
    rw [if_neg (by simp), runEntropy]
    cases runRounds (s.reg ra) (split (s.reg ra)).1 (split (s.reg ra)).2 k.toNat (s.entropyBases (s.reg ra)) 0 with
    | waiting => exact ⟨_, rfl, Ending.waiting hfe ⟨_, _, _, rfl, hd, by omega⟩⟩
    | verdict p u => exact ⟨_, rfl, Ending.verdict p u hfe ⟨_, _, _, rfl⟩⟩

/-! ### All commands -/

/-- Every command answers a next state, and it is one of the five endings. -/
theorem exec_ending (i : Instr) (s : State) : ∃ t, exec i s = .next t ∧ Ending i s t := by
  cases i with
  | nop => exact ⟨_, rfl, Ending.kept s.noinv rfl (Or.inl ⟨rfl, rfl⟩)⟩
  | mov rd ra => exact ⟨_, rfl, Ending.wroteOnly rd _ rfl rfl fun _ hr => hr.lt_of_le (le_refl _)⟩
  | ldi rd imm =>
    refine ⟨_, rfl, Ending.wroteOnly rd _ rfl rfl fun hl _ => ?_⟩
    refine lt_of_lt_of_le imm.isLt (Nat.pow_le_pow_right (by norm_num) ?_)
    have := hl.1
    unfold Config.nbits
    omega
  | mullo rd ra rb =>
    exact ⟨_, rfl, Ending.wroteOnly rd _ rfl rfl fun _ _ => Nat.mod_lt _ (by positivity)⟩
  | mulhi rd ra rb =>
    refine ⟨_, rfl, Ending.wroteOnly rd _ rfl rfl fun _ hr => ?_⟩
    exact Nat.div_lt_of_lt_mul (Nat.mul_lt_mul'' (hr ra).1 (hr rb).1)
  | modmul rd ra rb rm => exact execModmul_ending rd ra rb rm s
  | modexp rd ra rb rm => exact execModexp_ending rd ra rb rm s
  | crypt rd ra rb rm => exact execCrypt_ending rd ra rb rm s
  | gcd rd ra rb =>
    refine ⟨_, rfl, Ending.wroteOnly rd _ rfl rfl fun _ hr => ?_⟩
    rw [euclid_eq_gcd]
    rcases Nat.eq_zero_or_pos (s.reg rb) with h0 | h0
    · rw [h0, Nat.gcd_zero_right]
      exact (hr ra).1
    · exact hr.lt_of_le (Nat.gcd_le_right _ h0)
  | modinv rd ra rm => exact execModinv_ending rd ra rm s
  | mrtest ra rb k => exact execMrtest_ending ra rb k s

/-- The inversion form of `exec_ending`. -/
theorem ending_of_exec {i : Instr} {s t : State} (h : exec i s = .next t) : Ending i s t := by
  obtain ⟨u, hu, he⟩ := exec_ending i s
  obtain rfl : u = t := by simpa [hu] using h
  exact he

/-- No command changes the host's side of the state (R51, R312). -/
theorem Ending.sameHostSide {i : Instr} {s t : State} (h : Ending i s t) : SameHostSide s t := by
  cases h <;> simp [SameHostSide]

/-- ERRCMD changes only by an error completion (R40). -/
theorem Ending.errcmd {i : Instr} {s t : State} (h : Ending i s t) :
    t.errcmd = s.errcmd ∨ t.inflight = none ∧ t.err = true ∧ t.errcmd = s.inflightWord := by
  cases h <;> simp

/-- A register changes only by a successful command that names it as RD (R22). -/
theorem Ending.regs {i : Instr} {s t : State} (h : Ending i s t) (r : Reg) :
    t.regs.get r = s.regs.get r ∨ destReg i = some r ∧ t.inflight = none ∧ t.err = s.err := by
  cases h with
  | wrote rd v nv hd hf hn hv =>
    by_cases hr : r = rd
    · subst hr
      exact Or.inr ⟨hd, rfl, rfl⟩
    · exact Or.inl (s.writeReg_get_ne v hr)
  | _ => exact Or.inl rfl

end Sys2Proof.Machine
end

