-- ==== Sys2Proof/Laws/PerInstr.lean ====
section
/-! SUPPORT. One law of every command as syntax: the word the encoder gives a well-formed command matches a row of the opcode
map, and that row reads the command back (spec R94, R97, R98). -/

namespace Sys2Proof.Laws.EncodingRow

/-- Some row of the opcode map matches the command's word, and the row's fields of the word are the command's operands. -/
def Statement (i : Instr) : Prop :=
  i.wellFormed = true → ∃ r, r ∈ opcodeTable ∧ matchesRow (encode i) r = true ∧ rowInstr r.mnemonic (encode i) = i

theorem fieldReg_regBits (r : Reg) : fieldReg (regBits r) = r := (regBits_spec r).2

theorem regBits_and (r : Reg) : regBits r &&& 8 = 0 := (regBits_spec r).1

theorem nop : Statement .nop :=
  fun _ => ⟨⟨.nop, 0x00000000, 0xFFFFFFFF⟩, by decide, by decide, rfl⟩

theorem mov (rd ra : Reg) : Statement (.mov rd ra) := by
  refine fun _ => ⟨⟨.mov, packWord 0x01 0 0 0 0 0, packWord 0xFF 8 8 0xF 0xF 0xFF⟩, by decide, ?_, ?_⟩
  · exact (matchesRow_packWord ..).mpr ⟨⟨rfl, regBits_and _, regBits_and _, rfl, rfl, rfl⟩, fun h => by cases h⟩
  · simp [encode, rowInstr, fieldReg_regBits]

theorem ldi (rd : Reg) (imm : BitVec 8) : Statement (.ldi rd imm) := by
  refine fun _ => ⟨⟨.ldi, packWord 0x02 0 0 0 0 0, packWord 0xFF 8 0xF 0xF 0xF 0⟩, by decide, ?_, ?_⟩
  · exact (matchesRow_packWord ..).mpr ⟨⟨rfl, regBits_and _, rfl, rfl, rfl, BitVec.and_zero⟩, fun h => by cases h⟩
  · simp [encode, rowInstr, fieldReg_regBits]

theorem mullo (rd ra rb : Reg) : Statement (.mullo rd ra rb) := by
  refine fun _ => ⟨⟨.mullo, packWord 0x08 0 0 0 0 0, packWord 0xFF 8 8 8 0xF 0xFF⟩, by decide, ?_, ?_⟩
  · exact (matchesRow_packWord ..).mpr
      ⟨⟨rfl, regBits_and _, regBits_and _, regBits_and _, rfl, rfl⟩, fun h => by cases h⟩
  · simp [encode, rowInstr, fieldReg_regBits]

theorem mulhi (rd ra rb : Reg) : Statement (.mulhi rd ra rb) := by
  refine fun _ => ⟨⟨.mulhi, packWord 0x09 0 0 0 0 0, packWord 0xFF 8 8 8 0xF 0xFF⟩, by decide, ?_, ?_⟩
  · exact (matchesRow_packWord ..).mpr
      ⟨⟨rfl, regBits_and _, regBits_and _, regBits_and _, rfl, rfl⟩, fun h => by cases h⟩
  · simp [encode, rowInstr, fieldReg_regBits]

theorem modmul (rd ra rb rm : Reg) : Statement (.modmul rd ra rb rm) := by
  refine fun _ => ⟨⟨.modmul, packWord 0x0A 0 0 0 0 0, packWord 0xFF 8 8 8 8 0xFF⟩, by decide, ?_, ?_⟩
  · exact (matchesRow_packWord ..).mpr
      ⟨⟨rfl, regBits_and _, regBits_and _, regBits_and _, regBits_and _, rfl⟩, fun h => by cases h⟩
  · simp [encode, rowInstr, fieldReg_regBits]

theorem modexp (rd ra rb rm : Reg) : Statement (.modexp rd ra rb rm) := by
  refine fun _ => ⟨⟨.modexp, packWord 0x10 0 0 0 0 0, packWord 0xFF 8 8 8 8 0xFF⟩, by decide, ?_, ?_⟩
  · exact (matchesRow_packWord ..).mpr
      ⟨⟨rfl, regBits_and _, regBits_and _, regBits_and _, regBits_and _, rfl⟩, fun h => by cases h⟩
  · simp [encode, rowInstr, fieldReg_regBits]

theorem crypt (rd ra rb rm : Reg) : Statement (.crypt rd ra rb rm) := by
  refine fun _ => ⟨⟨.crypt, packWord 0x11 0 0 0 0 0, packWord 0xFF 8 8 8 8 0xFF⟩, by decide, ?_, ?_⟩
  · exact (matchesRow_packWord ..).mpr
      ⟨⟨rfl, regBits_and _, regBits_and _, regBits_and _, regBits_and _, rfl⟩, fun h => by cases h⟩
  · simp [encode, rowInstr, fieldReg_regBits]

theorem gcd (rd ra rb : Reg) : Statement (.gcd rd ra rb) := by
  refine fun _ => ⟨⟨.gcd, packWord 0x18 0 0 0 0 0, packWord 0xFF 8 8 8 0xF 0xFF⟩, by decide, ?_, ?_⟩
  · exact (matchesRow_packWord ..).mpr
      ⟨⟨rfl, regBits_and _, regBits_and _, regBits_and _, rfl, rfl⟩, fun h => by cases h⟩
  · simp [encode, rowInstr, fieldReg_regBits]

theorem modinv (rd ra rm : Reg) : Statement (.modinv rd ra rm) := by
  refine fun _ => ⟨⟨.modinv, packWord 0x19 0 0 0 0 0, packWord 0xFF 8 8 0xF 8 0xFF⟩, by decide, ?_, ?_⟩
  · exact (matchesRow_packWord ..).mpr
      ⟨⟨rfl, regBits_and _, regBits_and _, rfl, regBits_and _, rfl⟩, fun h => by cases h⟩
  · simp [encode, rowInstr, fieldReg_regBits]

theorem mrtest (ra rb : Reg) (k : BitVec 8) : Statement (.mrtest ra rb k) := by
  refine fun hk => ⟨⟨.mrtest, packWord 0x20 0 0 0 0 0, packWord 0xFF 0xF 8 8 0xF 0⟩, by decide, ?_, ?_⟩
  · exact (matchesRow_packWord ..).mpr
      ⟨⟨rfl, rfl, regBits_and _, regBits_and _, rfl, BitVec.and_zero⟩, fun _ => by simpa [Instr.wellFormed] using hk⟩
  · simp [encode, rowInstr, fieldReg_regBits]

end Sys2Proof.Laws.EncodingRow
end

