-- ==== Sys2Proof/Laws/Step.lean ====
section
/-! SUPPORT. What the bus port and one step can do, said once: the answer to a good access, to a bad one, and the list of
everything a step that answers a next state can be. -/

namespace Sys2Proof.Machine

/-! ### The bus port -/

/-- A good access inside the window is taken (R60, R64). -/
theorem busAccess_good (s : State) (e : BusResponse) (take : Nat → State × BusResponse) (off : Nat)
    (hp : s.porAsserted = false) (ho : off < 0x2000) (ha : off % 4 = 0) :
    busAccess (s.cfg.base + off) 32 s e take = .next ((take off).1.answer (take off).2) := by
  unfold busAccess windowBytes
  rw [if_neg (by omega), hp, if_neg (by simp)]
  simp [goodAccess, ha]

/-- A misaligned access, or one that is not 32 bits wide, inside the window changes nothing (R65). -/
theorem busAccess_bad (s : State) (e : BusResponse) (take : Nat → State × BusResponse) (off bits : Nat)
    (hp : s.porAsserted = false) (ho : off < 0x2000) (hbad : off % 4 ≠ 0 ∨ bits ≠ 32) :
    busAccess (s.cfg.base + off) bits s e take = .next (s.answer e) := by
  unfold busAccess windowBytes
  rw [if_neg (by omega), hp, if_neg (by simp), Nat.add_sub_cancel_left]
  refine if_neg ?_
  rw [goodAccess, Bool.and_eq_true, beq_iff_eq, beq_iff_eq]
  omega

/-- An access that answers a next state is a good one, or a bus error (R65). -/
theorem busAccess_next {addr bits : Nat} {s t : State} {e : BusResponse} {take : Nat → State × BusResponse}
    (h : busAccess addr bits s e take = .next t) :
    s.porAsserted = false ∧ ∃ off, off < 0x2000 ∧ addr = s.cfg.base + off ∧
      ((off % 4 = 0 ∧ bits = 32 ∧ t = (take off).1.answer (take off).2) ∨
        t = s.answer e) := by
  unfold busAccess windowBytes at h
  split at h
  · cases h
  · split at h
    · cases h
    · rename_i h1 h2
      refine ⟨by simpa using h2, addr - s.cfg.base, by omega, by omega, ?_⟩
      dsimp only at h
      split at h
      · rename_i h3
        simp only [goodAccess, Bool.and_eq_true, beq_iff_eq] at h3
        exact Or.inl ⟨h3.1, h3.2, (Host.Outcome.next.inj h).symm⟩
      · exact Or.inr (Host.Outcome.next.inj h).symm

/-! ### One step -/

theorem step_read {s : State} {off : Nat} {rest : List Event} (h : NextReads s off rest) :
    step s = .next (((s.dequeue rest).hostRead off).1.answer (.readData ((s.dequeue rest).hostRead off).2)) := by
  obtain ⟨he, hp, ho, ha⟩ := h
  rw [step, nextStep, he]
  exact busAccess_good (s.dequeue rest) (.readError 0)
    (fun off => (((s.dequeue rest).hostRead off).1, .readData ((s.dequeue rest).hostRead off).2)) off hp ho ha

theorem step_write {s : State} {off : Nat} {v : Word} {rest : List Event} (h : NextWrites s off v rest) :
    step s = .next (((s.dequeue rest).hostWrite off v).answer .writeDone) := by
  obtain ⟨he, hp, ho, ha⟩ := h
  rw [step, nextStep, he]
  exact busAccess_good (s.dequeue rest) .writeError
    (fun off => ((s.dequeue rest).hostWrite off v, .writeDone)) off hp ho ha

/-- The engine's turn, whether or not an event gives it. -/
def EngineTurn (s u : State) : Prop :=
  (s.events = [] ∧ u = s) ∨ ∃ rest, s.events = .engine :: rest ∧ u = s.dequeue rest

/-- Everything a step that answers a next state can be. -/
theorem step_cases {s t : State} (h : step s = .next t) :
    (∃ u, EngineTurn s u ∧ engineStep u = .next t) ∨
    (∃ off rest, NextReads s off rest ∧ t = ((s.dequeue rest).hostRead off).1.answer (.readData ((s.dequeue rest).hostRead off).2)) ∨
    (∃ off v rest, NextWrites s off v rest ∧
      t = ((s.dequeue rest).hostWrite off v).answer .writeDone) ∨
    (∃ rest e, s.porAsserted = false ∧ (e = .readError 0 ∨ e = .writeError) ∧ t = (s.dequeue rest).answer e) ∨
    (∃ b rest, s.events = .powerOn b :: rest ∧ t = (s.dequeue rest).powerOnReset b) := by
  unfold step nextStep at h
  split at h
  · rename_i he
    exact Or.inl ⟨s, Or.inl ⟨he, rfl⟩, h⟩
  · rename_i e rest he
    cases e with
    | engine => exact Or.inl ⟨_, Or.inr ⟨rest, he, rfl⟩, h⟩
    | read addr bits =>
      simp only [deliver, busRead] at h
      obtain ⟨hp, off, ho, rfl, ⟨ha, rfl, ht⟩ | ht⟩ := busAccess_next h
      · exact Or.inr (Or.inl ⟨off, rest, ⟨he, hp, ho, ha⟩, ht⟩)
      · exact Or.inr (Or.inr (Or.inr (Or.inl ⟨rest, _, hp, Or.inl rfl, ht⟩)))
    | write addr bits v =>
      simp only [deliver, busWrite] at h
      obtain ⟨hp, off, ho, rfl, ⟨ha, rfl, ht⟩ | ht⟩ := busAccess_next h
      · exact Or.inr (Or.inr (Or.inl ⟨off, v, rest, ⟨he, hp, ho, ha⟩, ht⟩))
      · exact Or.inr (Or.inr (Or.inr (Or.inl ⟨rest, _, hp, Or.inr rfl, ht⟩)))
    | powerOn b =>
      exact Or.inr (Or.inr (Or.inr (Or.inr ⟨b, rest, he, (Host.Outcome.next.inj h).symm⟩)))

/-- What the engine's turn does (R47). -/
theorem engineStep_cases {u t : State} (h : engineStep u = .next t) :
    (u.inflight = none ∧ t = u) ∨
    (∃ f i, u.inflight = some f ∧ decode f.word = .instr i ∧ exec i u = .next t) ∨
    (∃ f r, u.inflight = some f ∧ decode f.word = .illegal r ∧ t = u.raiseError .illegalCmd) := by
  unfold engineStep at h
  split at h
  · exact Or.inl ⟨by assumption, (Host.Outcome.next.inj h).symm⟩
  · split at h
    · exact Or.inr (Or.inl ⟨_, _, by assumption, by assumption, h⟩)
    · exact Or.inr (Or.inr ⟨_, _, by assumption, by assumption, (Host.Outcome.next.inj h).symm⟩)

/-- What a host read does: only a window read while BUSY = 1 changes the state (R66). -/
theorem State.hostRead_cases (s : State) (off : Nat) :
    (0x1000 ≤ off ∧ s.busy = true ∧ s.hostRead off = ({ s with busyacc := true }, 0)) ∨
    (0x1000 ≤ off ∧ s.busy = false ∧ s.hostRead off = (s, s.windowRead off)) ∨
    (off < 0x1000 ∧ s.hostRead off = (s, s.controlRead off)) := by
  unfold State.hostRead
  by_cases h : 0x1000 ≤ off
  · cases hb : s.busy <;> simp [inOperandWindow, h]
  · refine Or.inr (Or.inr ⟨by omega, ?_⟩)
    simp [inOperandWindow, h]

/-- What a host write does (R66). -/
theorem State.hostWrite_cases (s : State) (off : Nat) (v : Word) :
    (0x1000 ≤ off ∧ s.busy = true ∧ s.hostWrite off v = { s with busyacc := true }) ∨
    (0x1000 ≤ off ∧ s.busy = false ∧ ∃ i j, i = windowReg off ∧ j = windowLimb off ∧ j < s.cfg.nlimb ∧
      s.hostWrite off v = s.writeLimb i j v) ∨
    (off = 0x008 ∧ v.getLsbD 31 = true ∧ s.hostWrite off v = s.softReset) ∨
    (off = 0x008 ∧ v.getLsbD 31 = false ∧
      s.hostWrite off v = { s with ie := v.getLsbD 0, detb := v.getLsbD 1 }) ∨
    (off = 0x00C ∧ s.hostWrite off v = s.writeStatus v) ∨
    (off = 0x010 ∧ s.busy = true ∧ s.hostWrite off v = { s with cmdovr := true }) ∨
    (off = 0x010 ∧ s.busy = false ∧ s.hostWrite off v = s.accept v) ∨
    s.hostWrite off v = s := by
  unfold State.hostWrite
  by_cases h : 0x1000 ≤ off
  · simp only [inOperandWindow, h, decide_true, if_true, true_and]
    cases hb : s.busy
    · by_cases hj : windowLimb off < s.cfg.nlimb <;> simp [State.windowWrite, hj]
    · simp
  · simp only [inOperandWindow, h, decide_false, Bool.false_eq_true, if_false, false_and, false_or]
    unfold State.controlWrite
    by_cases h8 : off = 0x008
    · subst h8
      cases hv : v.getLsbD 31 <;> simp [State.writeCtrl, -BitVec.getLsbD_eq_getElem, hv]
    · by_cases hc : off = 0x00C
      · subst hc
        simp
      · by_cases h10 : off = 0x010
        · subst h10
          cases hb : s.busy <;> simp [State.writeCmd, hb]
        · simp [h8, hc, h10]

/-! ### The operand window -/

/-- The register of the offset of word j of register i's window (R62). -/
theorem windowReg_offset (i : Reg) (j : Nat) (hj : j ≤ 127) : windowReg (0x1000 + 0x200 * i.val + 4 * j) = i := by
  have := i.isLt
  apply Fin.ext
  simp only [windowReg, Fin.ofNat]
  omega

/-- The limb index of that offset (R62). -/
theorem windowLimb_offset (i : Reg) (j : Nat) (hj : j ≤ 127) : windowLimb (0x1000 + 0x200 * i.val + 4 * j) = j := by
  unfold windowLimb
  omega

/-- A limb as a number: 32 bits of the register, from bit 32j up (R21). -/
theorem limbOf_toNat (x j : Nat) : (limbOf x j).toNat = x / 2 ^ (32 * j) % 2 ^ 32 := BitVec.toNat_ofNat _ _

/-- A window read of limb j (R62). -/
theorem State.windowRead_lt (s : State) (i : Reg) {j : Nat} (hj : j ≤ 127) (h : j < s.cfg.nlimb) :
    s.windowRead (0x1000 + 0x200 * i.val + 4 * j) = limbOf (s.reg i) j := by
  rw [State.windowRead, windowReg_offset i j hj, windowLimb_offset i j hj, if_pos h]

/-- A window read above limb NLIMB - 1 (R62). -/
theorem State.windowRead_ge (s : State) (i : Reg) {j : Nat} (hj : j ≤ 127) (h : ¬ j < s.cfg.nlimb) :
    s.windowRead (0x1000 + 0x200 * i.val + 4 * j) = 0 := by
  rw [State.windowRead, windowLimb_offset i j hj, if_neg h]

/-- A host read of the operand window while BUSY = 0 (R62). -/
theorem State.hostRead_window (s : State) {off : Nat} (ho : 0x1000 ≤ off) (hb : s.busy = false) :
    s.hostRead off = (s, s.windowRead off) := by
  rcases s.hostRead_cases off with ⟨-, h, -⟩ | ⟨-, -, h⟩ | ⟨h, -⟩
  · rw [hb] at h; cases h
  · exact h
  · omega

/-- A host write of limb j while BUSY = 0 (R62). -/
theorem State.hostWrite_lt (s : State) (i : Reg) {j : Nat} (v : Word) (hj : j ≤ 127) (hb : s.busy = false)
    (h : j < s.cfg.nlimb) : s.hostWrite (0x1000 + 0x200 * i.val + 4 * j) v = s.writeLimb i j v := by
  unfold State.hostWrite
  rw [inOperandWindow, decide_eq_true (by omega), if_pos rfl, hb, if_neg (by simp), State.windowWrite,
    windowReg_offset i j hj, windowLimb_offset i j hj, if_pos h]

/-- A host write above limb NLIMB - 1 while BUSY = 0 (R62). -/
theorem State.hostWrite_ge (s : State) (i : Reg) {j : Nat} (v : Word) (hj : j ≤ 127) (hb : s.busy = false)
    (h : ¬ j < s.cfg.nlimb) : s.hostWrite (0x1000 + 0x200 * i.val + 4 * j) v = s := by
  unfold State.hostWrite
  rw [inOperandWindow, decide_eq_true (by omega), if_pos rfl, hb, if_neg (by simp), State.windowWrite,
    windowLimb_offset i j hj, if_neg h]

end Sys2Proof.Machine
end

