-- ==== Sys2Proof/Tests/Slice0.lean ====
section
/-! SUPPORT. The model's own tests, with the expected results of spec 95_test_vectors.md (the vector is named at each test), and
for every obligation with hypotheses a witness that meets them. Each test is one step on a small state. -/

namespace Sys2Proof.Tests

open Sys2Proof.Machine

/-! ### Small states -/

/-- A register of the given width, every limb written. -/
def full (nlimb v : Nat) : OpReg := { value := v, written := List.replicate nlimb true }

/-- The state after reset at the given width, with R0, R1, ... holding these values and the other registers 0, all written. -/
def idle (nlimb : Nat) (vals : List Nat) : State :=
  let r := fun i => full nlimb (vals.getD i 0)
  { State.reset with cfg := ⟨nlimb, 0⟩, regs := ⟨r 0, r 1, r 2, r 3, r 4, r 5, r 6, r 7⟩ }

/-- NBITS = 64. -/
def tiny (vals : List Nat) : State := idle 2 vals

/-- The same with word w in flight, in deterministic mode. -/
def inFlight (w : Word) (vals : List Nat) : State := { tiny vals with inflight := some { word := w, detb := true } }

/-- The same in entropy mode, with these answers. -/
def drawing (w : Word) (vals ans : List Nat) : State :=
  { tiny vals with inflight := some { word := w, detb := false }, entropy := ans }

/-- Nothing in flight, and a NOP in flight. -/
def quiet : State := tiny [1]
def busyNop : State := inFlight 0 [1]

/-- The state a step answers. -/
def after (o : Host.Outcome State Fault Refusal) : State :=
  match o with
  | .next t => t
  | .fault _ => State.reset
  | .refused _ => State.reset

/-- A register and the STATUS word after one step. -/
def result (r : Reg) (s : State) : Nat × Word := ((after (step s)).reg r, (after (step s)).statusWord)

/-! ### Well-formedness -/

/-- The one check of WellFormed refuses an MRTEST with K = 0 (R93). -/
theorem test_wellFormed_refuses_zero_rounds : (Instr.mrtest 0 6 0).wellFormed = false := by decide

theorem test_wellFormed_accepts_one_round : (Instr.mrtest 0 6 1).wellFormed = true := by decide

/-! ### Decoding: one word of each family, written out from R91 and R94 as IMM8, RM, RB, RA, RD, OP -/

theorem test_decode_nop : decode 0b00000000_0000_0000_0000_0000_00000000 = .instr .nop := by decide
theorem test_decode_mov : decode 0b00000000_0000_0000_0001_0010_00000001 = .instr (.mov 2 1) := by decide
theorem test_decode_ldi : decode 0b00000010_0000_0000_0000_0101_00000010 = .instr (.ldi 5 2) := by decide
theorem test_decode_mullo : decode 0b00000000_0000_0010_0001_0011_00001000 = .instr (.mullo 3 1 2) := by decide
theorem test_decode_mulhi : decode 0b00000000_0000_0010_0001_0011_00001001 = .instr (.mulhi 3 1 2) := by decide
theorem test_decode_modmul : decode 0b00000000_0011_0010_0001_0100_00001010 = .instr (.modmul 4 1 2 3) := by decide
theorem test_decode_modexp : decode 0b00000000_0011_0010_0001_0100_00010000 = .instr (.modexp 4 1 2 3) := by decide
theorem test_decode_crypt : decode 0b00000000_0011_0010_0001_0100_00010001 = .instr (.crypt 4 1 2 3) := by decide
theorem test_decode_gcd : decode 0b00000000_0000_0010_0001_0011_00011000 = .instr (.gcd 3 1 2) := by decide
theorem test_decode_modinv : decode 0b00000000_0011_0000_0100_0101_00011001 = .instr (.modinv 5 4 3) := by decide
theorem test_decode_mrtest : decode 0b00000001_0000_0010_0001_0000_00100000 = .instr (.mrtest 1 2 1) := by decide
theorem test_encode_mrtest : encode (.mrtest 1 2 1) = 0x01021020 := by decide

/-! ### Utility (44_utility.md) -/

/-- U-2. -/
theorem test_mov : result 2 (inFlight 0x00001201 [0, 65537]) = (65537, 0x00000002) := by decide

/-- U-4. -/
theorem test_ldi_clears_high_limbs : result 5 (inFlight 0xFF000502 [0, 0, 0, 0, 0, 2 ^ 64 - 1]) = (255, 0x00000002) := by
  decide

/-- U-3: every limb is marked written. -/
theorem test_ldi_marks_all_limbs :
    (after (exec (.ldi 5 2) State.reset)).regWritten 5 = true ∧ State.reset.regWritten 5 = false := by decide

/-- NOP's example (R200). -/
theorem test_nop : result 0 (inFlight 0x00000000 [7]) = (7, 0x00000002) := by decide

/-! ### Multiplier (42_multiply.md) -/

/-- R160's corner case a = b = 2^NBITS - 1 (M-3 at NBITS = 64). -/
theorem test_mullo_wraps : result 3 (inFlight 0x00021308 [0, 2 ^ 64 - 1, 2 ^ 64 - 1]) = (1, 0x00000002) := by decide

/-- M-1. -/
theorem test_mullo : result 3 (inFlight 0x00021308 [0, 61, 53]) = (3233, 0x00000002) := by decide

/-- R161's example a = b = 2^NBITS - 1 (M-4 at NBITS = 64). -/
theorem test_mulhi_top : result 3 (inFlight 0x00021309 [0, 2 ^ 64 - 1, 2 ^ 64 - 1]) = (2 ^ 64 - 2, 0x00000002) := by
  decide

/-- M-2. -/
theorem test_mulhi_small : result 3 (inFlight 0x00021309 [0, 61, 53]) = (0, 0x00000002) := by decide

/-- MM-2. -/
theorem test_modmul : result 4 (inFlight 0x0032140A [0, 20, 20, 13]) = (10, 0x00000002) := by decide

/-- MM-4. -/
theorem test_modmul_even : result 4 (inFlight 0x0032140A [0, 5, 7, 12, 999]) = (999, 0x00020006) := by decide

/-! ### Exponentiation (43_modexp.md) -/

/-- E-5. -/
theorem test_modexp_large_base : result 4 (inFlight 0x00321410 [0, 500, 13, 497]) = (444, 0x00000002) := by decide

/-- E-2: 0 ^ 0 = 1. -/
theorem test_modexp_zero : result 4 (inFlight 0x00321410 [0, 0, 0, 7]) = (1, 0x00000002) := by decide

/-- C-1. -/
theorem test_crypt : result 4 (inFlight 0x00321411 [0, 65, 17, 3233]) = (2790, 0x00000002) := by decide

/-- C-6: BAD_MODULUS before INVALID_RANGE. -/
theorem test_crypt_priority : result 4 (inFlight 0x00321411 [0, 5000, 17, 3232, 999]) = (999, 0x00020006) := by decide

/-! ### Euclid (41_euclid.md) -/

/-- G-9: the destination is a source. -/
theorem test_gcd_destination_is_source : result 1 (inFlight 0x00021118 [0, 54, 24]) = (6, 0x00000002) := by decide

/-- G-6. -/
theorem test_gcd_zero : result 3 (inFlight 0x00021318 []) = (0, 0x00000002) := by decide

/-- I-4. -/
theorem test_modinv : result 3 (inFlight 0x00201319 [0, 17, 3120, 999]) = (2753, 0x00000002) := by decide

/-- I-3: no inverse. -/
theorem test_modinv_none : result 3 (inFlight 0x00201319 [0, 2, 4, 999]) = (999, 0x00000202) := by decide

/-! ### Miller-Rabin (40_primality.md) -/

/-- MR-17: a pass at the 15th squaring. -/
theorem test_mrtest_last_squaring : (result 0 (inFlight 0x01060020 [65537, 0, 0, 0, 0, 0, 3])).2 = 0x00000102 := by decide

/-- MR-12: the third base register is the candidate itself. -/
theorem test_mrtest_bad_base : (result 0 (inFlight 0x03060020 [97, 0, 0, 0, 0, 0, 2, 5])).2 = 0x00040006 := by decide

/-- MR-19: in entropy mode 15 is found composite in the first round, whose base is the one draw. -/
theorem test_mrtest_entropy_draws_once :
    (after (step (drawing 0x0A000020 [15] [5, 6]))).statusWord = 0x00000002 ∧
      (after (step (drawing 0x0A000020 [15] [5, 6]))).entropy = [6] := by decide

/-! ### The host interface (10_state.md, 20_memory.md) -/

/-- The state with one more event to come. -/
def meets (e : Event) (s : State) : State := { s with events := [e] }

/-- H-2. -/
theorem test_host_cfg : (after (step (meets (.read 0x004 32) State.reset))).response = .readData 0x00080040 := by decide

/-- H-5. -/
theorem test_host_limb :
    (after (step (meets (.read 0x1200 32) (tiny [0, 3233])))).response = .readData 0x00000CA1 := by decide

/-- H-4. -/
theorem test_host_write :
    (after (step (meets (.write 0x1000 32 0xDEADBEEF) (tiny [2 ^ 32])))).reg 0 = 2 ^ 32 + 0xDEADBEEF := by decide

/-- H-7. -/
theorem test_host_misaligned :
    step (meets (.read 0x1002 32) (tiny [1])) = .next { tiny [1] with response := .readError 0 } := rfl

/-- H-8. -/
theorem test_host_busy_read :
    (after (step (meets (.read 0x1000 32) (inFlight 0 [5])))).response = .readData 0 ∧
      (after (step (meets (.read 0x1000 32) (inFlight 0 [5])))).busyacc = true := by decide

/-- STATUS = 0x0003_001E. -/
def failedStatus : State :=
  { tiny [] with done := true, err := true, errcode := .invalidRange, cmdovr := true, busyacc := true }

/-- H-10. -/
theorem test_host_w1c :
    failedStatus.statusWord = 0x0003001E ∧
      (after (step (meets (.write 0x00C 32 0x00000004) failedStatus))).statusWord = 0x0000001A := by decide

/-- H-12. -/
theorem test_host_soft_reset :
    let t := after (step (meets (.write 0x008 32 0x80000003) (inFlight 0x00021308 [0, 2, 3, 9])))
    t.statusWord = 0 ∧ t.ctrlWord = 0 ∧ t.inflight = none ∧ t.reg 3 = 9 := by decide

/-- The word placed by withFetchWord runs at the next step from reset. -/
theorem test_placed_word_runs : (after (step (State.reset.withFetchWord 32 0x02000502))).reg 5 = 2 := by decide

/-! ### Witnesses: for each obligation with hypotheses, states and operands that meet all of them, clause by clause -/

theorem witness_DecodeEncodeRoundTrip : (Instr.mrtest 7 7 255).wellFormed = true := by decide

theorem witness_EncodeDecodeRoundTrip : decode 0xFF077020 = .instr (.mrtest 7 7 255) := by decide

theorem witness_LegalWordsByFields :
    LegalWord 0xFF077020 ∧ decode 0x00060020 = .illegal .zeroRounds :=
  ⟨Or.inr (Or.inr (Or.inr (Or.inr (Or.inr (Or.inr (by decide)))))), by decide⟩

theorem witness_AtMostOneRowMatches :
    (⟨.crypt, 0x00000011, 0xFF8888FF⟩ : OpcodeRow) ∈ opcodeTable ∧
      matchesRow 0x00777711 ⟨.crypt, 0x00000011, 0xFF8888FF⟩ = true := by decide

/-- No event, the engine's event, and a placed word. -/
theorem witness_StepRunsDecodedCommand :
    (inFlight 0x00021308 [0, 2, 3]).inflight = some ⟨0x00021308, true⟩ ∧
      decode 0x00021308 = .instr (.mullo 3 1 2) ∧
      (inFlight 0x00021308 [0, 2, 3]).events = [] ∧
      (meets .engine (inFlight 0x00021308 [0, 2, 3])).events = .engine :: [] ∧
      decodeTableWord 32 0x00021308 = some (.mullo 3 1 2) := by decide

theorem witness_IllegalCommandCompletion :
    (inFlight 0x00000100 []).inflight = some ⟨0x00000100, true⟩ ∧
      decode 0x00000100 = .illegal .unusedField := by decide

theorem witness_NopOnlyCompletes : opField 0x00000100 = 0x00 ∧ (0x00000100 : Word) ≠ 0 := by decide

theorem witness_MulhiHighHalf :
    (tiny [2 ^ 64 - 1, 2 ^ 64 - 1]).cfg.Legal ∧ RegsFit (tiny [2 ^ 64 - 1, 2 ^ 64 - 1]) ∧
      exec (.mullo 2 0 1) (tiny [2 ^ 64 - 1, 2 ^ 64 - 1]) =
        .next (after (exec (.mullo 2 0 1) (tiny [2 ^ 64 - 1, 2 ^ 64 - 1]))) := by
  exact ⟨by decide, by decide, rfl⟩

/-- Odd moduli 1 and 2^64 - 1, and even moduli 0 and 2. -/
theorem witness_ModmulProduct :
    (tiny [1]).reg 0 % 2 = 1 ∧ (tiny [2 ^ 64 - 1]).reg 0 % 2 = 1 ∧ (tiny [0]).reg 0 % 2 = 0 ∧ (tiny [2]).reg 0 % 2 = 0 := by
  decide

theorem witness_ModexpPower :
    (tiny [1]).reg 0 % 2 = 1 ∧ (tiny [2 ^ 64 - 1]).reg 0 % 2 = 1 ∧ (tiny [0]).reg 0 % 2 = 0 ∧ (tiny [2]).reg 0 % 2 = 0 := by
  decide

/-- x = n - 1, x = n, and n = 0. -/
theorem witness_CryptPower :
    ((tiny [14, 0, 15]).reg 2 % 2 = 1 ∧ (tiny [14, 0, 15]).reg 0 < (tiny [14, 0, 15]).reg 2) ∧
      ((tiny [15, 0, 15]).reg 2 % 2 = 1 ∧ (tiny [15, 0, 15]).reg 2 ≤ (tiny [15, 0, 15]).reg 0) ∧
      (tiny [0, 0, 0]).reg 2 % 2 = 0 := by decide

/-- n = 3 * 5, e = d = 3, x = n - 1. -/
theorem witness_RsaRoundTrip :
    let s := inFlight 0x00210311 [14, 3, 15]
    let t := after (exec (.crypt 3 0 1 2) s)
    let u := tiny [t.reg 3, 3, 15]
    Nat.Prime 3 ∧ Nat.Prime 5 ∧ 3 ≠ 5 ∧ 3 % 2 = 1 ∧ 5 % 2 = 1 ∧ 3 * 3 % ((3 - 1) * (5 - 1)) = 1 % ((3 - 1) * (5 - 1)) ∧
      14 < 3 * 5 ∧ s.reg 0 = 14 ∧ s.reg 1 = 3 ∧ s.reg 2 = 3 * 5 ∧ exec (.crypt 3 0 1 2) s = .next t ∧
      u.reg 0 = t.reg 3 ∧ u.reg 1 = 3 ∧ u.reg 2 = 3 * 5 := by
  exact ⟨by norm_num, by norm_num, by decide, rfl, rfl, rfl, by decide, rfl, rfl, rfl, rfl, rfl, rfl, rfl⟩

theorem witness_GcdLaws :
    exec (.gcd 2 0 1) (tiny [54, 24]) = .next (after (exec (.gcd 2 0 1) (tiny [54, 24]))) ∧
      exec (.gcd 3 1 0) (tiny [54, 24]) = .next (after (exec (.gcd 3 1 0) (tiny [54, 24]))) ∧
      2 ∣ (tiny [54, 24]).reg 0 ∧ 2 ∣ (tiny [54, 24]).reg 1 := by
  exact ⟨rfl, rfl, by decide, by decide⟩

/-- m = 0; gcd(2, 4) != 1; and m = 1, the smallest modulus, where gcd(5, 1) = 1. -/
theorem witness_ModinvInverse :
    (tiny [3, 0]).reg 1 = 0 ∧
      ((tiny [2, 4]).reg 1 ≠ 0 ∧ Nat.gcd ((tiny [2, 4]).reg 0) ((tiny [2, 4]).reg 1) ≠ 1) ∧
      ((tiny [5, 1]).reg 1 ≠ 0 ∧ Nat.gcd ((tiny [5, 1]).reg 0) ((tiny [5, 1]).reg 1) = 1) := by
  decide

theorem witness_ModinvLaws :
    1 ≤ (tiny [5, 1]).reg 1 ∧ exec (.modinv 2 0 1) (tiny [5, 1]) = .next (after (exec (.modinv 2 0 1) (tiny [5, 1]))) ∧
      (after (exec (.modinv 2 0 1) (tiny [5, 1]))).noinv = false := by
  exact ⟨by decide, rfl, rfl⟩

/-- n = 0, 3, and 4 with the largest round count. -/
theorem witness_MrtestTrivialCandidates :
    (255 : BitVec 8) ≠ 0 ∧ ((tiny [0]).reg 0 ≤ 3 ∨ (tiny [0]).reg 0 % 2 = 0) ∧
      ((tiny [3]).reg 0 ≤ 3 ∨ (tiny [3]).reg 0 % 2 = 0) ∧ ((tiny [4]).reg 0 ≤ 3 ∨ (tiny [4]).reg 0 % 2 = 0) := by
  decide

/-- n = 5 with base n - 2 = 3 in R1, and with base 4, just out of range; and n = 4. -/
theorem witness_MrtestDeterministic :
    let s := inFlight 0x01010020 [5, 3]
    let u := inFlight 0x01010020 [5, 4]
    ((1 : BitVec 8) ≠ 0 ∧ s.inflightDetb = true ∧ 5 ≤ s.reg 0 ∧ s.reg 0 % 2 = 1 ∧
      ∀ i, i < min (1 : BitVec 8).toNat 8 → 2 ≤ s.reg (Fin.ofNat 8 ((1 : Reg).val + i)) ∧
        s.reg (Fin.ofNat 8 ((1 : Reg).val + i)) ≤ s.reg 0 - 2) ∧
    (u.inflightDetb = true ∧ 5 ≤ u.reg 0 ∧ u.reg 0 % 2 = 1 ∧
      ∃ i, i < min (1 : BitVec 8).toNat 8 ∧ (u.reg (Fin.ofNat 8 ((1 : Reg).val + i)) < 2 ∨
        u.reg 0 - 2 < u.reg (Fin.ofNat 8 ((1 : Reg).val + i)))) ∧
    ((inFlight 0x01010020 [4]).inflightDetb = true ∧ (inFlight 0x01010020 [4]).reg 0 % 2 = 0) := by
  exact ⟨by decide, ⟨by decide, by decide, by decide, ⟨0, by decide, by decide⟩⟩, by decide⟩

/-- Base 2 rejects 15. -/
theorem rejects_15_2 : ¬ BaseAccepts 15 2 := fun h =>
  absurd ((mrRound_split_iff 15 2 (by decide) (by decide)).mpr h) (by decide)

/-- n = 5 with one answer for one round; and n = 15 with one answer, base 2, for ten rounds: the first round rejects. -/
theorem witness_MrtestEntropyRounds :
    let s := drawing 0x01000020 [5] [0]
    let u := drawing 0x0A000020 [15] [0]
    ((1 : BitVec 8) ≠ 0 ∧ s.inflightDetb = false ∧ 5 ≤ s.reg 0 ∧ s.reg 0 % 2 = 1 ∧
      (1 : BitVec 8).toNat ≤ s.entropy.length) ∧
    (10 : BitVec 8) ≠ 0 ∧ u.inflightDetb = false ∧ 5 ≤ u.reg 0 ∧ u.reg 0 % 2 = 1 ∧
      u.entropy.length < (10 : BitVec 8).toNat ∧
      ∃ m x, m < (10 : BitVec 8).toNat ∧ u.entropy[m]? = some x ∧ ¬ BaseAccepts (u.reg 0) (entropyBase (u.reg 0) x) :=
  ⟨by decide, by decide, by decide, by decide, by decide, by decide, 0, 0, by decide, by decide, rejects_15_2⟩

/-- Base 2 accepts 13. -/
theorem accepts_13_2 : BaseAccepts 13 2 := (mrRound_split_iff 13 2 (by decide) (by decide)).mp (by decide)

/-- n = 13 with one answer, base 2, for two rounds. -/
theorem witness_MrtestWaitsForEntropy :
    let s := drawing 0x02000020 [13] [0]
    (2 : BitVec 8) ≠ 0 ∧ s.inflightDetb = false ∧ 5 ≤ s.reg 0 ∧ s.reg 0 % 2 = 1 ∧
      s.entropy.length < (2 : BitVec 8).toNat ∧ ∀ x ∈ s.entropy, BaseAccepts (s.reg 0) (entropyBase (s.reg 0) x) := by
  refine ⟨by decide, by decide, by decide, by decide, by decide, fun x hx => ?_⟩
  obtain rfl : x = 0 := by simpa [drawing] using hx
  exact accepts_13_2

theorem witness_EntropyBasesCoverRange : 5 ≤ 5 ∧ entropyBase 5 0 = 2 ∧ entropyBase 5 1 = 3 := by decide

/-- A prime, a composite with verdict 0, and an odd candidate in each mode. -/
theorem witness_VerdictLaws :
    let s := inFlight 0x01010020 [5, 3]
    let t := after (exec (.mrtest 0 1 1) s)
    let u := drawing 0x01000020 [15] [0]
    let v := after (exec (.mrtest 0 0 1) u)
    ((1 : BitVec 8) ≠ 0 ∧ s.busy = true ∧ exec (.mrtest 0 1 1) s = .next t ∧ Succeeds s t ∧
      firstError s (.mrtest 0 1 1) = none ∧ Nat.Prime (s.reg 0) ∧ 5 ≤ s.reg 0 ∧ s.reg 0 % 2 = 1) ∧
    (u.busy = true ∧ exec (.mrtest 0 0 1) u = .next v ∧ Succeeds u v ∧
      firstError u (.mrtest 0 0 1) = none ∧ v.prime = false ∧ 5 ≤ u.reg 0 ∧ u.reg 0 % 2 = 1) := by
  refine ⟨⟨by decide, rfl, rfl, ?_, by decide, ?_, by decide, by decide⟩,
    ⟨rfl, rfl, ?_, by decide, by decide, by decide, by decide⟩⟩
  · unfold Succeeds SameHostSide
    decide
  · change Nat.Prime 5
    norm_num
  · unfold Succeeds SameHostSide
    decide

/-- Each error, none, and the wait. -/
theorem witness_ErrorPriority :
    firstError (tiny [5, 2]) (.mrtest 0 1 0) = some .illegalCmd ∧
      firstError (tiny [5000, 17, 3232]) (.crypt 4 0 1 2) = some .badModulus ∧
      firstError (tiny [3233, 17, 3233]) (.crypt 4 0 1 2) = some .invalidRange ∧
      firstError (inFlight 0x01010020 [5, 4]) (.mrtest 0 1 1) = some .badBase ∧
      firstError (drawing 0x01000020 [5] []) (.mrtest 0 0 1) = none := by decide

/-- A BAD_BASE, a BAD_MODULUS of MODINV, and an illegal word. -/
theorem witness_ErrorsArePrecise :
    let s := inFlight 0x01010020 [5, 4]
    let u := inFlight 0x00201319 [0, 2, 0]
    let v := inFlight 0x00000100 []
    (engineStep s = .next (after (engineStep s)) ∧ s.err = false ∧ (after (engineStep s)).err = true ∧
      (after (engineStep s)).errcode = .badBase) ∧
    (engineStep u = .next (after (engineStep u)) ∧ u.err = false ∧ (after (engineStep u)).err = true ∧
      decode u.inflightWord = .instr (.modinv 3 1 2)) ∧
    (engineStep v = .next (after (engineStep v)) ∧ v.err = false ∧ (after (engineStep v)).err = true ∧
      (after (engineStep v)).errcode ≠ .badBase ∧ ∃ r, decode v.inflightWord = .illegal r) := by
  exact ⟨⟨rfl, rfl, rfl, rfl⟩, ⟨rfl, rfl, rfl, by decide⟩, rfl, rfl, rfl, by decide, .unusedField, by decide⟩

/-- The engine's turn raises this error code, as the number STATUS shows. -/
def raises (code : Word) (s : State) : Prop :=
  engineStep s = .next (after (engineStep s)) ∧ s.err = false ∧ (after (engineStep s)).err = true ∧
    (after (engineStep s)).statusWord >>> 16 = code

/-- The flags agree in a quiet state, and after an error; each of the four codes (R301's numbers) comes up. -/
theorem witness_ErrorCodeTable :
    FlagsAgree quiet ∧ FlagsAgree failedStatus ∧ raises 1 (inFlight 0x00000100 []) ∧
      raises 2 (inFlight 0x00210311 [5000, 17, 3232]) ∧ raises 2 (inFlight 0x00201319 [0, 2, 0]) ∧
      raises 3 (inFlight 0x00210311 [3233, 17, 3233]) ∧ raises 4 (inFlight 0x01010020 [5, 4]) :=
  ⟨by decide, by decide, ⟨rfl, rfl, rfl, by decide⟩, ⟨rfl, rfl, rfl, by decide⟩, ⟨rfl, rfl, rfl, by decide⟩,
    ⟨rfl, rfl, rfl, by decide⟩, rfl, rfl, rfl, by decide⟩

theorem witness_CommandFrame :
    let s := inFlight 0x00010208 [2, 3]
    let t := after (exec (.mullo 2 0 1) s)
    exec (.mullo 2 0 1) s = .next t ∧ t.regs.get 2 ≠ s.regs.get 2 := by
  exact ⟨rfl, by decide⟩

/-- Two states that differ in every flag, for each of the two clauses. -/
theorem witness_FlagsDoNotAffectCommands :
    let s := inFlight 0x01010020 [5, 3]
    let u := { s with ie := true, done := true, err := true, errcode := .badBase, prime := true, noinv := true }
    let a := after (exec (.mrtest 0 1 1) s)
    let b := after (exec (.mrtest 0 1 1) u)
    (u.cfg = s.cfg ∧ u.regs = s.regs ∧ u.inflight = s.inflight ∧ u.entropy = s.entropy ∧
      exec (.mrtest 0 1 1) s = .next a ∧ exec (.mrtest 0 1 1) u = .next b ∧ s.busy = true ∧ a.busy = false) ∧
      exec (.modinv 2 0 1) s = .next (after (exec (.modinv 2 0 1) s)) ∧
      exec (.modinv 2 0 1) u = .next (after (exec (.modinv 2 0 1) u)) := by
  exact ⟨⟨rfl, rfl, rfl, rfl, rfl, rfl, rfl, rfl⟩, rfl, rfl⟩

/-- R3 unwritten and holding this value, R0 and R1 written. -/
def unwrittenR3 (v : Nat) : State := { tiny [2, 3] with regs := (tiny [2, 3]).regs.set 3 ⟨v, [false, false]⟩ }

/-- The same, with events to come. -/
def unwrittenR3Then (v : Nat) (es : List Event) : State := { unwrittenR3 v with events := es }

/-- Two states whose R3 is unwritten and holds different values agree on what has been written. -/
theorem unwrittenR3_agree (a b : Nat) (es : List Event) : AgreeOnWritten (unwrittenR3Then a es) (unwrittenR3Then b es) := by
  refine ⟨rfl, fun i => ?_⟩
  by_cases hi : i = 3
  · subst hi
    exact ⟨rfl, fun j hj => by rcases j with _ | _ | j <;> cases hj⟩
  · fin_cases i <;> first | exact absurd rfl hi | exact ⟨rfl, fun j _ => rfl⟩

/-- A command that does not read R3; and a host read of R0, one outside the window, and one during reset: steps that answer,
fault and are refused. -/
theorem witness_UnwrittenValuesInvisible :
    let s := unwrittenR3Then 0 []
    let t := unwrittenR3Then 77 []
    let e := [Event.read 0x1004 32]
    let f := [Event.read 0x2000 32]
    (RegsFit s ∧ RegsFit t ∧ AgreeOnWritten s t ∧ readsUnwritten s (.mullo 2 0 1) = false) ∧
    (RegsFit (unwrittenR3Then 0 e) ∧ RegsFit (unwrittenR3Then 77 e) ∧
      AgreeOnWritten (unwrittenR3Then 0 e) (unwrittenR3Then 77 e) ∧ unwrittenFault (unwrittenR3Then 0 e) = false ∧
      step (unwrittenR3Then 0 e) = .next (after (step (unwrittenR3Then 0 e)))) ∧
    (unwrittenFault (unwrittenR3Then 0 f) = false ∧ step (unwrittenR3Then 0 f) = .fault .outsideWindow) ∧
    (unwrittenFault { unwrittenR3Then 0 e with porAsserted := true } = false ∧
      step { unwrittenR3Then 0 e with porAsserted := true } = .refused .busDuringReset) :=
  ⟨⟨by decide, by decide, unwrittenR3_agree _ _ _, by decide⟩,
    ⟨by decide, by decide, unwrittenR3_agree _ _ _, by decide, rfl⟩, ⟨by decide, rfl⟩, by decide, rfl⟩

/-- A state whose next event is a good read. -/
theorem nextReads (s : State) (off : Nat) (hb : s.cfg.base = 0) (hp : s.porAsserted = false) (ho : off < 0x2000)
    (ha : off % 4 = 0) : NextReads (meets (.read off 32) s) off [] := by
  refine ⟨?_, hp, ho, ha⟩
  change [Event.read off 32] = [Event.read (s.cfg.base + off) 32]
  rw [hb, Nat.zero_add]

/-- A state whose next event is a good write. -/
theorem nextWrites (s : State) (off : Nat) (v : Word) (hb : s.cfg.base = 0) (hp : s.porAsserted = false)
    (ho : off < 0x2000) (ha : off % 4 = 0) : NextWrites (meets (.write off 32 v) s) off v [] := by
  refine ⟨?_, hp, ho, ha⟩
  change [Event.write off 32 v] = [Event.write (s.cfg.base + off) 32 v]
  rw [hb, Nat.zero_add]

/-- A read of the last limb of unwritten R3, of the word above it, and of word 127; and a command that reads R3. -/
theorem witness_UnwrittenReadsAreFaults :
    let s := meets (.read 0x1604 32) (unwrittenR3 0)
    let u := { unwrittenR3 0 with inflight := some { word := 0x00003201, detb := false } }
    (NextReads s (0x1000 + 0x200 * (3 : Reg).val + 4 * 1) [] ∧ s.busy = false ∧ 1 < s.cfg.nlimb ∧
      s.limbWritten 3 1 = false ∧ unwrittenFault s = true) ∧
    (NextReads (meets (.read 0x1608 32) (unwrittenR3 0)) (0x1000 + 0x200 * (3 : Reg).val + 4 * 2) [] ∧
      unwrittenFault (meets (.read 0x1608 32) (unwrittenR3 0)) = false) ∧
    NextReads (meets (.read 0x17FC 32) (unwrittenR3 0)) (0x1000 + 0x200 * (3 : Reg).val + 4 * 127) [] ∧
    (RegsFit u ∧ NextRuns u (.mov 2 3) ∧ unwrittenFault u = true) :=
  ⟨⟨nextReads _ _ rfl rfl (by decide) (by decide), rfl, by decide, by decide, by decide⟩,
    ⟨nextReads _ _ rfl rfl (by decide) (by decide), by decide⟩, nextReads _ _ rfl rfl (by decide) (by decide),
    by decide, ⟨Or.inl rfl, _, rfl, by decide⟩, by decide⟩

theorem witness_CommandAccepted :
    NextWrites (meets (.write 0x010 32 0x00021308) quiet) 0x010 0x00021308 [] ∧ quiet.busy = false :=
  ⟨nextWrites _ _ _ rfl rfl (by decide) (by decide), rfl⟩

theorem witness_CmdRegister :
    (NextWrites (meets (.write 0x010 32 5) busyNop) 0x010 5 [] ∧ busyNop.busy = true) ∧
      (NextWrites (meets (.write 0x010 32 5) quiet) 0x010 5 [] ∧ quiet.busy = false) ∧
      NextReads (meets (.read 0x010 32) quiet) 0x010 [] :=
  ⟨⟨nextWrites _ _ _ rfl rfl (by decide) (by decide), rfl⟩, ⟨nextWrites _ _ _ rfl rfl (by decide) (by decide), rfl⟩,
    nextReads _ _ rfl rfl (by decide) (by decide)⟩

theorem witness_CtrlRegister :
    (NextWrites (meets (.write 0x008 32 0x80000003) busyNop) 0x008 0x80000003 [] ∧
        (0x80000003 : Word).getLsbD 31 = true) ∧
      (NextWrites (meets (.write 0x008 32 0x7FFFFFFF) busyNop) 0x008 0x7FFFFFFF [] ∧
        (0x7FFFFFFF : Word).getLsbD 31 = false) ∧
      NextReads (meets (.read 0x008 32) quiet) 0x008 [] :=
  ⟨⟨nextWrites _ _ _ rfl rfl (by decide) (by decide), by decide⟩,
    ⟨nextWrites _ _ _ rfl rfl (by decide) (by decide), by decide⟩, nextReads _ _ rfl rfl (by decide) (by decide)⟩

theorem witness_StatusWriteClears : NextWrites (meets (.write 0x00C 32 0x0000001E) failedStatus) 0x00C 0x0000001E [] :=
  nextWrites _ _ _ rfl rfl (by decide) (by decide)

theorem witness_ControlRegisterReads :
    NextReads (meets (.read 0x000 32) quiet) 0x000 [] ∧
      (NextReads (meets (.read 0x004 32) quiet) 0x004 [] ∧ quiet.cfg.Legal) ∧
      NextReads (meets (.read 0x00C 32) quiet) 0x00C [] ∧ NextReads (meets (.read 0x014 32) quiet) 0x014 [] :=
  ⟨nextReads _ _ rfl rfl (by decide) (by decide), ⟨nextReads _ _ rfl rfl (by decide) (by decide), by decide⟩,
    nextReads _ _ rfl rfl (by decide) (by decide), nextReads _ _ rfl rfl (by decide) (by decide)⟩

/-- Both ends of the reserved offsets, and the three read-only registers. -/
theorem witness_ReservedOffsets :
    NextReads (meets (.read 0x018 32) quiet) 0x018 [] ∧ NextReads (meets (.read 0xFFC 32) quiet) 0xFFC [] ∧
      NextWrites (meets (.write 0x018 32 1) quiet) 0x018 1 [] ∧ NextWrites (meets (.write 0xFFC 32 1) quiet) 0xFFC 1 [] ∧
      NextWrites (meets (.write 0x000 32 1) quiet) 0x000 1 [] ∧ NextWrites (meets (.write 0x004 32 1) quiet) 0x004 1 [] ∧
      NextWrites (meets (.write 0x014 32 1) quiet) 0x014 1 [] := by
  refine ⟨?_, ?_, ?_, ?_, ?_, ?_, ?_⟩ <;>
    first | exact nextReads _ _ rfl rfl (by decide) (by decide) | exact nextWrites _ _ _ rfl rfl (by decide) (by decide)

/-- R7: the last limb (j = 1 at NBITS = 64), the first word above it, and the last word (j = 127). -/
theorem witness_OperandWindowIdle :
    quiet.busy = false ∧ NextReads (meets (.read 0x1E04 32) quiet) (0x1000 + 0x200 * (7 : Reg).val + 4 * 1) [] ∧
      NextWrites (meets (.write 0x1E04 32 9) quiet) (0x1000 + 0x200 * (7 : Reg).val + 4 * 1) 9 [] ∧
      NextReads (meets (.read 0x1E08 32) quiet) (0x1000 + 0x200 * (7 : Reg).val + 4 * 2) [] ∧
      NextWrites (meets (.write 0x1FFC 32 9) quiet) (0x1000 + 0x200 * (7 : Reg).val + 4 * 127) 9 [] := by
  refine ⟨rfl, ?_, ?_, ?_, ?_⟩ <;>
    first | exact nextReads _ _ rfl rfl (by decide) (by decide) | exact nextWrites _ _ _ rfl rfl (by decide) (by decide)

/-- Both ends of the operand window, and of the control registers. -/
theorem witness_OperandWindowBusy :
    busyNop.busy = true ∧ NextReads (meets (.read 0x1000 32) busyNop) 0x1000 [] ∧
      NextWrites (meets (.write 0x1FFC 32 9) busyNop) 0x1FFC 9 [] ∧
      NextReads (meets (.read 0x0FFC 32) busyNop) 0x0FFC [] ∧
      NextWrites (meets (.write 0x000 32 9) busyNop) 0x000 9 [] :=
  ⟨rfl, nextReads _ _ rfl rfl (by decide) (by decide), nextWrites _ _ _ rfl rfl (by decide) (by decide),
    nextReads _ _ rfl rfl (by decide) (by decide), nextWrites _ _ _ rfl rfl (by decide) (by decide)⟩

/-- A misaligned and a narrow read at the ends of the window, and a misaligned and a narrow write. -/
theorem witness_BadAccessBusError :
    quiet.porAsserted = false ∧
      (0x1FFF < 0x2000 ∧ 0x1FFF % 4 ≠ 0 ∧
        (meets (.read 0x1FFF 32) quiet).events = .read (quiet.cfg.base + 0x1FFF) 32 :: []) ∧
      (16 ≠ 32 ∧ (meets (.read 0 16) quiet).events = .read (quiet.cfg.base + 0) 16 :: []) ∧
      (1 % 4 ≠ 0 ∧ (meets (.write 1 32 1) quiet).events = .write (quiet.cfg.base + 1) 32 1 :: []) ∧
      (8 ≠ 32 ∧ (meets (.write 0x1FFC 8 1) quiet).events = .write (quiet.cfg.base + 0x1FFC) 8 1 :: []) := by
  decide

/-- With BASE = 0x2000: one byte below the window, the first byte above it, and an access while power-on reset is held. -/
theorem witness_BusStops :
    let s := { quiet with cfg := ⟨2, 0x2000⟩ }
    ((meets (.read 0x1FFF 32) s).events = .read 0x1FFF 32 :: [] ∧ 0x1FFF < s.cfg.base) ∧
      ((meets (.write 0x4000 32 1) s).events = .write 0x4000 32 1 :: [] ∧ s.cfg.base + 0x2000 ≤ 0x4000) ∧
      (s.cfg.base ≤ 0x2000 ∧ 0x2000 < s.cfg.base + 0x2000 ∧
        (meets (.read 0x2000 32) { s with porAsserted := true }).porAsserted = true) := by
  decide

theorem witness_ReadAfterWrite :
    let s := { quiet with events := [.write 0x1E04 32 9, .read 0x1E04 32] }
    s.busy = false ∧ 1 < s.cfg.nlimb ∧
      NextWrites s (0x1000 + 0x200 * (7 : Reg).val + 4 * 1) 9
        (.read (s.cfg.base + (0x1000 + 0x200 * (7 : Reg).val + 4 * 1)) 32 :: []) :=
  ⟨rfl, by decide, rfl, rfl, by decide, by decide⟩

theorem witness_LoadSequenceWritesRegister : RegsFit quiet ∧ 2 ^ 64 - 1 < 2 ^ quiet.cfg.nbits := by decide

theorem witness_WindowBytesLittleEndian : quiet.cfg.Legal ∧ 7 < 4 * quiet.cfg.nlimb := by decide

theorem witness_PowerOnReset :
    (meets (.powerOn true) busyNop).events = .powerOn true :: [] ∧
      (meets (.powerOn false) busyNop).events = .powerOn false :: [] := by decide

theorem witness_IrqRises :
    let s := { busyNop with ie := true }
    let t := after (engineStep s)
    (s.busy = true ∧ s.ie = true ∧ engineStep s = .next t ∧ t.busy = false) ∧
      (NextWrites (meets (.write 0x008 32 1) failedStatus) 0x008 1 [] ∧ (1 : Word).getLsbD 31 = false ∧
        (1 : Word).getLsbD 0 = true ∧ failedStatus.done = true) :=
  ⟨⟨rfl, rfl, rfl, rfl⟩, nextWrites _ _ _ rfl rfl (by decide) (by decide), by decide, by decide, rfl⟩

/-- The four ways IRQ falls, each from a state in which IRQ is high. -/
theorem witness_IrqClears :
    let s := { failedStatus with ie := true }
    s.irq = true ∧ NextWrites (meets (.write 0x00C 32 2) s) 0x00C 2 [] ∧
      (NextWrites (meets (.write 0x010 32 0) s) 0x010 0 [] ∧ s.busy = false) ∧
      (NextWrites (meets (.write 0x008 32 2) s) 0x008 2 [] ∧ (2 : Word).getLsbD 31 = false ∧ (2 : Word).getLsbD 0 = false) ∧
      NextResets (meets (.powerOn true) s) :=
  ⟨rfl, nextWrites _ _ _ rfl rfl (by decide) (by decide), ⟨nextWrites _ _ _ rfl rfl (by decide) (by decide), rfl⟩,
    ⟨nextWrites _ _ _ rfl rfl (by decide) (by decide), by decide, by decide⟩, Or.inr ⟨true, [], rfl⟩⟩

/-- A W1C write of bits 1 and 2, the acceptance of a NOP, a successful completion, and an error completion. -/
theorem witness_Acknowledgement :
    let s := meets (.write 0x00C 32 6) failedStatus
    let u := meets (.write 0x010 32 0) failedStatus
    (step s = .next (after (step s)) ∧ NextWrites s 0x00C 6 [] ∧ (6 : Word).getLsbD 1 = true ∧
      (6 : Word).getLsbD 2 = true) ∧
      (step u = .next (after (step u)) ∧ NextWrites u 0x010 0 [] ∧ u.busy = false) ∧
      (engineStep busyNop = .next (after (engineStep busyNop)) ∧ busyNop.err = false ∧
        (after (engineStep busyNop)).err = false) ∧
      (engineStep (inFlight 0x00000100 []) = .next (after (engineStep (inFlight 0x00000100 []))) ∧
        (after (engineStep (inFlight 0x00000100 []))).err = true) :=
  ⟨⟨rfl, nextWrites _ _ _ rfl rfl (by decide) (by decide), by decide, by decide⟩,
    ⟨rfl, nextWrites _ _ _ rfl rfl (by decide) (by decide), rfl⟩, ⟨rfl, rfl, rfl⟩, rfl, rfl⟩

/-- One step sets CMDOVR, a W1C write clears it, and a reset clears it. -/
theorem witness_CmdovrSources :
    let s := meets (.write 0x010 32 5) busyNop
    let u := meets (.write 0x00C 32 8) failedStatus
    let w := meets (.powerOn true) failedStatus
    (step s = .next (after (step s)) ∧ s.cmdovr = false ∧ (after (step s)).cmdovr = true) ∧
      NextWrites s 0x010 5 [] ∧ s.busy = true ∧
      (step u = .next (after (step u)) ∧ u.cmdovr = true ∧ (after (step u)).cmdovr = false) ∧
      NextWrites u 0x00C 8 [] ∧ (8 : Word).getLsbD 3 = true ∧
      step w = .next (after (step w)) ∧ NextResets w :=
  ⟨⟨rfl, rfl, rfl⟩, nextWrites _ _ _ rfl rfl (by decide) (by decide), rfl, ⟨rfl, rfl, rfl⟩,
    nextWrites _ _ _ rfl rfl (by decide) (by decide), by decide, rfl, Or.inr ⟨true, [], rfl⟩⟩

theorem witness_BusyaccSources :
    let s := meets (.read 0x1FFC 32) busyNop
    let u := meets (.write 0x00C 32 0x10) failedStatus
    (step s = .next (after (step s)) ∧ s.busyacc = false ∧ (after (step s)).busyacc = true) ∧
      NextReads s 0x1FFC [] ∧ s.busy = true ∧
      (step u = .next (after (step u)) ∧ u.busyacc = true ∧ (after (step u)).busyacc = false) ∧
      NextWrites u 0x00C 0x10 [] ∧ (0x10 : Word).getLsbD 4 = true :=
  ⟨⟨rfl, rfl, rfl⟩, nextReads _ _ rfl rfl (by decide) (by decide), rfl, ⟨rfl, rfl, rfl⟩,
    nextWrites _ _ _ rfl rfl (by decide) (by decide), by decide⟩

/-- An error completion, and a reset. -/
theorem witness_ErrcmdSources :
    let s := inFlight 0x00000100 []
    let u := meets (.powerOn true) { quiet with errcmd := 5 }
    (step s = .next (after (step s)) ∧ s.err = false ∧ (after (step s)).err = true ∧
      (after (step s)).errcmd ≠ s.errcmd) ∧
      (step u = .next (after (step u)) ∧ NextResets u ∧ (after (step u)).errcmd ≠ u.errcmd) :=
  ⟨⟨rfl, rfl, rfl, by decide⟩, rfl, Or.inr ⟨true, [], rfl⟩, by decide⟩

/-- An MRTEST of 2, a MODINV of 2 modulo 4, and a reset. -/
theorem witness_VerdictFlagSources :
    let s := inFlight 0x01060020 [2]
    let u := inFlight 0x00201319 [0, 2, 4]
    let w := meets (.powerOn true) { quiet with prime := true, noinv := true }
    (step s = .next (after (step s)) ∧ (after (step s)).prime ≠ s.prime) ∧
      (step u = .next (after (step u)) ∧ (after (step u)).noinv ≠ u.noinv) ∧
      (step w = .next (after (step w)) ∧ (after (step w)).prime ≠ w.prime ∧ (after (step w)).noinv ≠ w.noinv) :=
  ⟨⟨rfl, by decide⟩, ⟨rfl, by decide⟩, rfl, by decide, by decide⟩

/-- A result write, a limb write and a power-on reset. -/
theorem witness_RegisterSources :
    let s := inFlight 0x00021308 [0, 61, 53]
    let u := meets (.write 0x1E04 32 9) quiet
    let w := meets (.powerOn true) quiet
    (step s = .next (after (step s)) ∧ (after (step s)).regs.get 3 ≠ s.regs.get 3) ∧
      (step u = .next (after (step u)) ∧ (after (step u)).regs.get 7 ≠ u.regs.get 7) ∧
      (step w = .next (after (step w)) ∧ (after (step w)).regs.get 0 ≠ w.regs.get 0) :=
  ⟨⟨rfl, by decide⟩, ⟨rfl, by decide⟩, rfl, by decide⟩

theorem witness_AcceptedCommandIsFixed :
    let s := meets (.write 0x010 32 5) busyNop
    step s = .next (after (step s)) ∧ s.inflight = some ⟨0, true⟩ ∧ NextWrites s 0x010 5 [] :=
  ⟨rfl, rfl, nextWrites _ _ _ rfl rfl (by decide) (by decide)⟩

/-- A state with a command in flight that ends in an error, and one held in reset. -/
theorem witness_StepKeepsInv :
    (Inv (inFlight 0x00000100 [7]) ∧
      step (inFlight 0x00000100 [7]) = .next (after (step (inFlight 0x00000100 [7])))) ∧
      Inv (quiet.powerOnReset true) :=
  ⟨⟨by decide, rfl⟩, by decide⟩

end Sys2Proof.Tests
end

/-! SUPPORT. The control registers as the host meets them (spec 10_state.md): what a step does that is an access to one of
them, and what any step can do to the misuse flags, ERR and ERRCMD. -/

namespace Sys2Proof.Machine

/-! ### Control register accesses (R25, R61) -/

@[simp] theorem State.dequeue_controlRead (s : State) (rest : List Event) (off : Nat) :
    (s.dequeue rest).controlRead off = s.controlRead off := rfl

/-- An access below the operand window goes to the control registers. -/
theorem State.hostWrite_control (s : State) {off : Nat} (v : Word) (ho : off < 0x1000) :
    s.hostWrite off v = s.controlWrite off v := by
  rw [State.hostWrite, inOperandWindow, decide_eq_false (by omega), if_neg (by simp)]

/-- A read of a control register changes nothing but the bus answer. -/
theorem step_controlRead {s : State} {off : Nat} {rest : List Event} (h : NextReads s off rest) (ho : off < 0x1000) :
    step s = .next ((s.dequeue rest).answer (.readData (s.controlRead off))) := by
  rcases (s.dequeue rest).hostRead_cases off with ⟨hw, -⟩ | ⟨hw, -⟩ | ⟨-, hr⟩
  · omega
  · omega
  · rw [step_read h, hr, State.dequeue_controlRead]

theorem step_controlWrite {s : State} {off : Nat} {v : Word} {rest : List Event} (h : NextWrites s off v rest)
    (ho : off < 0x1000) : step s = .next (((s.dequeue rest).controlWrite off v).answer .writeDone) := by
  rw [step_write h, State.hostWrite_control _ _ ho]

section
variable (s : State) (v : Word)

@[simp] theorem State.controlRead_ctrl : s.controlRead 0x008 = s.ctrlWord := rfl
@[simp] theorem State.controlRead_cmd : s.controlRead 0x010 = 0 := rfl
@[simp] theorem State.controlWrite_ctrl : s.controlWrite 0x008 v = s.writeCtrl v := rfl
@[simp] theorem State.controlWrite_status : s.controlWrite 0x00C v = s.writeStatus v := rfl
@[simp] theorem State.controlWrite_cmd : s.controlWrite 0x010 v = s.writeCmd v := rfl

/-- Only CTRL, STATUS and CMD take writes (R41). -/
theorem State.controlWrite_ignored {off : Nat} (h8 : off ≠ 0x008) (hc : off ≠ 0x00C) (h10 : off ≠ 0x010) :
    s.controlWrite off v = s := by
  rw [State.controlWrite, if_neg h8, if_neg hc, if_neg h10]

/-- Reserved offsets read 0 (R41). -/
theorem State.controlRead_reserved {off : Nat} (ho : 0x018 ≤ off) : s.controlRead off = 0 := by
  rw [State.controlRead, if_neg (by omega), if_neg (by omega), if_neg (by omega), if_neg (by omega),
    if_neg (by omega)]

theorem State.writeCmd_busy (hb : s.busy = true) : s.writeCmd v = { s with cmdovr := true } := if_pos hb

theorem State.writeCmd_idle (hb : s.busy = false) : s.writeCmd v = s.accept v := if_neg (by simp [hb])

variable {v}

theorem State.writeCtrl_softReset (hv : v.getLsbD 31 = true) : s.writeCtrl v = s.softReset := if_pos hv

theorem State.writeCtrl_plain (hv : v.getLsbD 31 = false) :
    s.writeCtrl v = { s with ie := v.getLsbD 0, detb := v.getLsbD 1 } := if_neg (ne_true_of_eq_false hv)

/-- The CTRL word as a number: IE in bit 0, DETB in bit 1 (R29). -/
theorem State.ctrlWord_toNat : s.ctrlWord.toNat = s.ie.toNat + 2 * s.detb.toNat := by
  unfold State.ctrlWord
  cases s.ie <;> cases s.detb <;> rfl

end

/-! ### Misuse while BUSY = 1 (R39, R68), and STATUS writes -/

theorem State.hostRead_window_busy (s : State) {off : Nat} (ho : 0x1000 ≤ off) (hb : s.busy = true) :
    s.hostRead off = ({ s with busyacc := true }, 0) := by
  rw [State.hostRead, inOperandWindow, decide_eq_true ho, if_pos rfl, if_pos hb]

theorem State.hostWrite_window_busy (s : State) {off : Nat} (v : Word) (ho : 0x1000 ≤ off) (hb : s.busy = true) :
    s.hostWrite off v = { s with busyacc := true } := by
  rw [State.hostWrite, inOperandWindow, decide_eq_true ho, if_pos rfl, if_pos hb]

/-- Every window access while BUSY = 1 sets BUSYACC. -/
theorem step_window_busy {s t : State} {off : Nat} {rest : List Event} (h : step s = .next t) (ho : 0x1000 ≤ off)
    (ha : NextReads s off rest ∨ ∃ v, NextWrites s off v rest) (hb : s.busy = true) : t.busyacc = true := by
  rcases ha with hr | ⟨v, hw⟩
  · rw [step_read hr, State.hostRead_window_busy (s.dequeue rest) ho hb] at h
    exact Host.Outcome.next.inj h ▸ rfl
  · rw [step_write hw, State.hostWrite_window_busy (s.dequeue rest) v ho hb] at h
    exact Host.Outcome.next.inj h ▸ rfl

/-- A CMD write while BUSY = 1 sets CMDOVR (R39). -/
theorem step_cmd_busy {s t : State} {w : Word} {rest : List Event} (h : step s = .next t)
    (hw : NextWrites s 0x010 w rest) (hb : s.busy = true) : t.cmdovr = true := by
  rw [step_controlWrite hw (by norm_num), State.controlWrite_cmd, State.writeCmd_busy (s.dequeue rest) w hb] at h
  exact Host.Outcome.next.inj h ▸ rfl

/-- A STATUS write that answers a next state (R31). -/
theorem step_status {s t : State} {v : Word} {rest : List Event} (h : step s = .next t)
    (hw : NextWrites s 0x00C v rest) : t = ((s.dequeue rest).writeStatus v).answer .writeDone := by
  rw [step_controlWrite hw (by norm_num), State.controlWrite_status] at h
  exact (Host.Outcome.next.inj h).symm

/-! ### Resets and the engine's turn -/

/-- The two resets (R350, R352). -/
theorem step_reset {s t : State} (h : step s = .next t) (hr : NextResets s) :
    (∃ rest, t = (s.dequeue rest).softReset.answer .writeDone) ∨ ∃ b rest, t = (s.dequeue rest).powerOnReset b := by
  rcases hr with ⟨v, rest, hw, hv⟩ | ⟨b, rest, he⟩
  · rw [step_controlWrite hw (by norm_num), State.controlWrite_ctrl, State.writeCtrl_softReset _ hv] at h
    exact Or.inl ⟨rest, (Host.Outcome.next.inj h).symm⟩
  · rw [step, nextStep, he] at h
    exact Or.inr ⟨b, rest, (Host.Outcome.next.inj h).symm⟩

/-- The misuse flags and ERR are clear after a reset, and ERRCMD is 0 (R44). -/
theorem step_reset_clears {s t : State} (h : step s = .next t) (hr : NextResets s) :
    t.cmdovr = false ∧ t.busyacc = false ∧ t.err = false ∧ t.errcmd = 0 := by
  rcases step_reset h hr with ⟨rest, rfl⟩ | ⟨b, rest, rfl⟩ <;> simp

/-- The engine's turn takes at most its own event from the state. -/
theorem EngineTurn.eq_dequeue {s u : State} (h : EngineTurn s u) : u = s.dequeue u.events := by
  rcases h with ⟨-, rfl⟩ | ⟨rest, -, rfl⟩ <;> rfl

/-- The engine never changes the host's side of the state (R51, R312). -/
theorem engineStep_sameHostSide {u t : State} (h : engineStep u = .next t) : SameHostSide u t := by
  rcases engineStep_cases h with ⟨-, rfl⟩ | ⟨f, i, -, -, hx⟩ | ⟨f, r, -, -, rfl⟩
  · simp [SameHostSide]
  · exact (ending_of_exec hx).sameHostSide
  · exact (u.raiseError_fails _).1

/-- ERR and ERRCMD change only together, by an error completion (R34, R40). -/
theorem Ending.err_errcmd {i : Instr} {s t : State} (h : Ending i s t) :
    (t.err = s.err ∧ t.errcmd = s.errcmd) ∨ t.inflight = none ∧ t.err = true ∧ t.errcmd = s.inflightWord := by
  cases h <;> simp

/-- The same for the engine's turn, with the failing command named. -/
theorem engineStep_err_errcmd {u t : State} (h : engineStep u = .next t) :
    (t.err = u.err ∧ t.errcmd = u.errcmd) ∨
      ∃ f, u.inflight = some f ∧ t.inflight = none ∧ t.err = true ∧ t.errcmd = f.word := by
  rcases engineStep_cases h with ⟨-, rfl⟩ | ⟨f, i, hf, -, hx⟩ | ⟨f, r, hf, -, rfl⟩
  · exact Or.inl ⟨rfl, rfl⟩
  · rcases (ending_of_exec hx).err_errcmd with hk | ⟨hn, he, hw⟩
    · exact Or.inl hk
    · exact Or.inr ⟨f, hf, hn, he, by rw [hw, State.inflightWord, hf]⟩
  · exact Or.inr ⟨f, hf, rfl, rfl, by rw [State.raiseError_errcmd, State.inflightWord, hf]⟩

/-! ### What a step can do to the misuse flags, ERR and ERRCMD -/

/-- The ways a step from s to t can bear on CMDOVR, BUSYACC, ERR and ERRCMD. -/
inductive FlagEffect (s t : State) : Prop
  /-- A soft or power-on reset clears all four (R44). -/
  | reset (hcmdovr : t.cmdovr = false) (hbusyacc : t.busyacc = false) (herr : t.err = false) (herrcmd : t.errcmd = 0)
      (hr : NextResets s)
  /-- A STATUS write clears the flags whose bit is set (R31). -/
  | statusWrite {v : Word} {rest : List Event} (ht : t = ((s.dequeue rest).writeStatus v).answer .writeDone)
      (hw : NextWrites s 0x00C v rest)
  /-- A CMD write while BUSY = 1 (R35). -/
  | cmdDropped {w : Word} {rest : List Event} (hcmdovr : t.cmdovr = true) (hbusyacc : t.busyacc = s.busyacc)
      (herr : t.err = s.err) (herrcmd : t.errcmd = s.errcmd) (hw : NextWrites s 0x010 w rest) (hb : s.busy = true)
  /-- An operand window access while BUSY = 1 (R36). -/
  | windowBusy {off : Nat} {rest : List Event} (hcmdovr : t.cmdovr = s.cmdovr) (hbusyacc : t.busyacc = true)
      (herr : t.err = s.err) (herrcmd : t.errcmd = s.errcmd) (ho : 0x1000 ≤ off)
      (ha : NextReads s off rest ∨ ∃ v, NextWrites s off v rest) (hb : s.busy = true)
  /-- An error completion, after which ERRCMD holds the word that was in flight (R40, R50). -/
  | failed {f : InFlight} (hcmdovr : t.cmdovr = s.cmdovr) (hbusyacc : t.busyacc = s.busyacc) (herr : t.err = true)
      (herrcmd : t.errcmd = f.word) (hf : s.inflight = some f) (hn : t.inflight = none)
  /-- Any other access or turn of the engine: acceptance may clear ERR (R46), nothing else changes. -/
  | unrelated (hcmdovr : t.cmdovr = s.cmdovr) (hbusyacc : t.busyacc = s.busyacc) (herr : t.err = true → s.err = true)
      (herrcmd : t.errcmd = s.errcmd)

theorem flagEffect_of_engineStep {s t : State} {rest : List Event} (h : engineStep (s.dequeue rest) = .next t) :
    FlagEffect s t := by
  obtain ⟨-, -, -, hc, ha, -⟩ := engineStep_sameHostSide h
  rcases engineStep_err_errcmd h with ⟨he, hm⟩ | ⟨f, hf, hn, he, hm⟩
  · exact .unrelated hc ha (fun ht => he ▸ ht) hm
  · exact .failed hc ha he hm hf hn

theorem flagEffect_of_read {s : State} {off : Nat} {rest : List Event} (hr : NextReads s off rest) :
    FlagEffect s (((s.dequeue rest).hostRead off).1.answer (.readData ((s.dequeue rest).hostRead off).2)) := by
  rcases (s.dequeue rest).hostRead_cases off with ⟨ho, hb, e⟩ | ⟨-, -, e⟩ | ⟨-, e⟩ <;> rw [e]
  · exact .windowBusy rfl rfl rfl rfl ho (Or.inl hr) hb
  · exact .unrelated rfl rfl id rfl
  · exact .unrelated rfl rfl id rfl

theorem flagEffect_of_write {s : State} {off : Nat} {v : Word} {rest : List Event} (hw : NextWrites s off v rest) :
    FlagEffect s (((s.dequeue rest).hostWrite off v).answer .writeDone) := by
  rcases (s.dequeue rest).hostWrite_cases off v with ⟨ho, hb, e⟩ | ⟨-, -, i, j, -, -, -, e⟩ | ⟨rfl, hv, e⟩ | ⟨-, -, e⟩ |
    ⟨rfl, e⟩ | ⟨rfl, hb, e⟩ | ⟨-, -, e⟩ | e <;> rw [e]
  · exact .windowBusy rfl rfl rfl rfl ho (Or.inr ⟨v, hw⟩) hb
  · exact .unrelated rfl rfl id rfl
  · exact .reset rfl rfl rfl rfl (Or.inl ⟨v, rest, hw, hv⟩)
  · exact .unrelated rfl rfl id rfl
  · exact .statusWrite rfl hw
  · exact .cmdDropped rfl rfl rfl rfl hw hb
  · exact .unrelated rfl rfl (fun h => nomatch h) rfl
  · exact .unrelated rfl rfl id rfl

/-- Every step that answers a next state bears on the four in one of these ways. -/
theorem flagEffect_of_step {s t : State} (h : step s = .next t) : FlagEffect s t := by
  rcases step_cases h with ⟨u, hu, hx⟩ | ⟨off, rest, hr, rfl⟩ | ⟨off, v, rest, hw, rfl⟩ | ⟨rest, e, -, -, rfl⟩ |
    ⟨b, rest, he, rfl⟩
  · exact flagEffect_of_engineStep (hu.eq_dequeue ▸ hx)
  · exact flagEffect_of_read hr
  · exact flagEffect_of_write hw
  · exact .unrelated rfl rfl id rfl
  · exact .reset rfl rfl rfl rfl (Or.inr ⟨b, rest, he⟩)

/-! ### The statements on the control registers -/

/-- Settles O34: the step is the control write of CMD, which accepts. -/
theorem commandAccepted : Obligations.CommandAccepted := by
  intro s w rest h hb
  rw [step_controlWrite h (by norm_num), State.controlWrite_cmd, State.writeCmd_idle (s.dequeue rest) w hb]
  rfl

/-- Settles O35: both writes and the read are control register accesses, and what each does depends on BUSY alone. -/
theorem cmdRegister : Obligations.CmdRegister := by
  intro s rest
  refine ⟨fun w h hb => ?_, fun w h hb => ?_, fun h => ?_⟩
  · rw [step_controlWrite h (by norm_num), State.controlWrite_cmd, State.writeCmd_busy (s.dequeue rest) w hb]
    rfl
  · rw [step_controlWrite h (by norm_num), State.controlWrite_cmd, State.writeCmd_idle (s.dequeue rest) w hb]
  · rw [step_controlRead h (by norm_num), State.controlRead_cmd]
    rfl

/-- Settles O36: bit 31 of the written word chooses between the soft reset and the plain write. -/
theorem ctrlRegister : Obligations.CtrlRegister := by
  intro s rest
  refine ⟨fun v h hv => ?_, fun v h hv => ?_, fun h => ⟨s.ctrlWord, ?_, s.ctrlWord_toNat⟩⟩
  · rw [step_controlWrite h (by norm_num), State.controlWrite_ctrl, State.writeCtrl_softReset _ hv]
    rfl
  · rw [step_controlWrite h (by norm_num), State.controlWrite_ctrl, State.writeCtrl_plain _ hv]
    rfl
  · rw [step_controlRead h (by norm_num), State.controlRead_ctrl]
    rfl

/-- Write-one-to-clear of one flag (R31). -/
theorem writeOneToClear (b x : Bool) : if b then (x && !b) = false else (x && !b) = x := by
  cases b <;> simp

/-- Settles O37: each flag is the old one and not its bit. -/
theorem statusWriteClears : Obligations.StatusWriteClears := by
  intro s v rest h
  refine ⟨_, step_controlWrite h (by norm_num), rfl, writeOneToClear _ _, ?_, writeOneToClear _ _, writeOneToClear _ _⟩
  rw [State.controlWrite_status, State.answer_err, State.answer_errcode, State.writeStatus_err, State.writeStatus_errcode]
  cases v.getLsbD 2 <;> simp

/-- Settles O39: the reserved offsets read 0, and none of the offsets named takes writes. -/
theorem reservedOffsets : Obligations.ReservedOffsets := by
  intro s off rest
  refine ⟨fun h hlo hhi => ?_, fun v h ho => ?_⟩
  · rw [step_controlRead h (by omega), State.controlRead_reserved _ hlo]
    rfl
  · rw [step_controlWrite h (by omega), State.controlWrite_ignored _ _ (by omega) (by omega) (by omega)]
    rfl

/-! ### The statements on what sets and clears each flag -/

/-- Settles O51: of the effects a step can have, only a dropped CMD write sets CMDOVR, and only W1C and reset clear it. -/
theorem cmdovrSources : Obligations.CmdovrSources := by
  intro s t h
  refine ⟨fun w rest hw hb => ?_, fun hs ht => ?_, ?_, fun hs ht => ?_⟩
  · exact step_cmd_busy h hw hb
  · cases flagEffect_of_step h with
    | cmdDropped _ _ _ _ hw hb => exact ⟨_, _, hw, hb⟩
    | statusWrite e => simp [e, hs] at ht
    | reset hc | windowBusy hc | failed hc | unrelated hc => simp [hc, hs] at ht
  · rintro (⟨v, rest, hw, hv⟩ | hr)
    · rw [step_status h hw, State.answer_cmdovr, State.writeStatus_cmdovr, hv, Bool.not_true, Bool.and_false]
    · obtain ⟨hc, -⟩ := step_reset_clears h hr
      exact hc
  · cases flagEffect_of_step h with
    | reset _ _ _ _ hr => exact Or.inr hr
    | statusWrite e hw => exact Or.inl ⟨_, _, hw, by simpa [e, hs] using ht⟩
    | cmdDropped hc | windowBusy hc | failed hc | unrelated hc => simp [hc, hs] at ht

/-- Settles O52: of the effects a step can have, only a window access while BUSY = 1 sets BUSYACC, and only W1C and reset
clear it. -/
theorem busyaccSources : Obligations.BusyaccSources := by
  intro s t h
  refine ⟨fun off rest ho ha hb => step_window_busy h ho ha hb, fun hs ht => ?_, ?_, fun hs ht => ?_⟩
  · cases flagEffect_of_step h with
    | windowBusy _ _ _ _ ho ha hb => exact ⟨hb, _, _, ho, ha⟩
    | statusWrite e => simp [e, hs] at ht
    | reset _ ha | cmdDropped _ ha | failed _ ha | unrelated _ ha => simp [ha, hs] at ht
  · rintro (⟨v, rest, hw, hv⟩ | hr)
    · rw [step_status h hw, State.answer_busyacc, State.writeStatus_busyacc, hv, Bool.not_true, Bool.and_false]
    · obtain ⟨-, ha, -⟩ := step_reset_clears h hr
      exact ha
  · cases flagEffect_of_step h with
    | reset _ _ _ _ hr => exact Or.inr hr
    | statusWrite e hw => exact Or.inl ⟨_, _, hw, by simpa [e, hs] using ht⟩
    | windowBusy _ ha | cmdDropped _ ha | failed _ ha | unrelated _ ha => simp [ha, hs] at ht

/-- Settles O53: of the effects a step can have, only an error completion sets ERR, and only it and reset change ERRCMD. -/
theorem errcmdSources : Obligations.ErrcmdSources := by
  intro s t h
  refine ⟨fun hs ht => ?_, fun hr => ?_, fun hne => ?_⟩
  · cases flagEffect_of_step h with
    | failed _ _ _ hm hf => rw [hm, State.inflightWord, hf]
    | statusWrite e => simp [e, hs] at ht
    | unrelated _ _ he => simp [he ht] at hs
    | reset _ _ he | cmdDropped _ _ he | windowBusy _ _ he => simp [he, hs] at ht
  · obtain ⟨-, -, -, hm⟩ := step_reset_clears h hr
    exact hm
  · cases flagEffect_of_step h with
    | failed _ _ he hm hf hn => exact Or.inr ⟨_, hf, hn, he, hm⟩
    | reset _ _ _ hm hr => exact Or.inl ⟨hr, hm⟩
    | statusWrite e => exact absurd (by simp [e]) hne
    | unrelated _ _ _ hm | cmdDropped _ _ _ hm | windowBusy _ _ _ hm => exact absurd hm hne

end Sys2Proof.Machine

/-! SUPPORT. The window as the host meets it (spec 20_memory.md): accesses to the operand window while idle and while busy,
and bus errors. -/

namespace Sys2Proof.Machine

/-! ### Window accesses while BUSY = 0 (R62) -/

@[simp] theorem State.dequeue_windowRead (s : State) (rest : List Event) (off : Nat) :
    (s.dequeue rest).windowRead off = s.windowRead off := rfl

/-- A read of a window word changes nothing but the bus answer. -/
theorem step_windowRead {s : State} {off : Nat} {rest : List Event} (h : NextReads s off rest) (ho : 0x1000 ≤ off)
    (hb : s.busy = false) : step s = .next ((s.dequeue rest).answer (.readData (s.windowRead off))) := by
  rw [step_read h, State.hostRead_window (s.dequeue rest) ho hb, State.dequeue_windowRead]

/-- The word a window read returns, as a number. -/
theorem State.windowRead_toNat (s : State) (i : Reg) {j : Nat} (hj : j ≤ 127) :
    (s.windowRead (0x1000 + 0x200 * i.val + 4 * j)).toNat =
      if j < s.cfg.nlimb then s.reg i / 2 ^ (32 * j) % 2 ^ 32 else 0 := by
  split
  next h => rw [State.windowRead_lt s i hj h, limbOf_toNat]
  next h => rw [State.windowRead_ge s i hj h]; rfl

theorem withLimb_div_mod_same (x j : Nat) (v : Word) : withLimb x j v / 2 ^ (32 * j) % 2 ^ 32 = v.toNat := by
  rw [← limbOf_toNat, limbOf_withLimb_same]

theorem withLimb_div_mod_ne (x : Nat) {j k : Nat} (v : Word) (h : k ≠ j) :
    withLimb x j v / 2 ^ (32 * k) % 2 ^ 32 = x / 2 ^ (32 * k) % 2 ^ 32 := by
  rw [← limbOf_toNat, ← limbOf_toNat, limbOf_withLimb_ne x v h]

section
variable {s : State} {i : Reg} {j : Nat} {v : Word} {rest : List Event}

/-- A write of a limb is the limb write of that register. -/
theorem step_windowWrite_lt (h : NextWrites s (0x1000 + 0x200 * i.val + 4 * j) v rest) (hb : s.busy = false)
    (hj : j ≤ 127) (hn : j < s.cfg.nlimb) :
    step s = .next (((s.dequeue rest).writeLimb i j v).answer .writeDone) := by
  rw [step_write h, State.hostWrite_lt (s.dequeue rest) i v hj hb hn]

/-- A write above limb NLIMB - 1 is answered and ignored. -/
theorem step_windowWrite_ge (h : NextWrites s (0x1000 + 0x200 * i.val + 4 * j) v rest) (hb : s.busy = false)
    (hj : j ≤ 127) (hn : ¬ j < s.cfg.nlimb) : step s = .next ((s.dequeue rest).answer .writeDone) := by
  rw [step_write h, State.hostWrite_ge (s.dequeue rest) i v hj hb hn]

end

/-! ### Control writes and BUSYACC (R36) -/

/-- No control register write sets BUSYACC. -/
theorem State.busyacc_of_controlWrite {s : State} {off : Nat} {v : Word} (ho : off < 0x1000)
    (h : (s.controlWrite off v).busyacc = true) : s.busyacc = true := by
  rw [← State.hostWrite_control s v ho] at h
  rcases s.hostWrite_cases off v with ⟨hw, -⟩ | ⟨hw, -⟩ | ⟨-, -, e⟩ | ⟨-, -, e⟩ | ⟨-, e⟩ | ⟨-, -, e⟩ | ⟨-, -, e⟩ | e
  · omega
  · omega
  all_goals rw [e] at h
  · exact nomatch h
  · exact h
  · exact Bool.and_elim_left h
  · exact h
  · exact h
  · exact h

/-! ### Bad accesses (R65) -/

/-- An access the block's window contains is the block's while power-on reset is released (R61, R350). -/
theorem takesAccess_offset {s : State} {off : Nat} (ho : off < 0x2000) (hp : s.porAsserted = false) :
    takesAccess s (s.cfg.base + off) = true := by
  simp [takesAccess, windowBytes, hp, ho]

theorem goodAccess_eq_false {off bits : Nat} (hbad : off % 4 ≠ 0 ∨ bits ≠ 32) : goodAccess off bits = false := by
  rw [goodAccess, Bool.and_eq_false_iff, beq_eq_false_iff_ne, beq_eq_false_iff_ne]
  exact hbad

/-- What both arms of `accessFault` say of a bad access. -/
theorem takesAccess_not_good {s : State} {off bits : Nat} (ho : off < 0x2000) (hp : s.porAsserted = false)
    (hbad : off % 4 ≠ 0 ∨ bits ≠ 32) :
    (takesAccess s (s.cfg.base + off) && !goodAccess (s.cfg.base + off - s.cfg.base) bits) = true := by
  rw [takesAccess_offset ho hp, Nat.add_sub_cancel_left, goodAccess_eq_false hbad]
  rfl

section
variable {s : State} {off bits : Nat} {rest : List Event}

/-- A pending event is delivered to the state it has been taken from (log 7). -/
theorem step_event {e : Event} (he : s.events = e :: rest) : step s = deliver e (s.dequeue rest) := by
  rw [step, nextStep, he]

/-- A bad read answers a bus error and the word 0. -/
theorem step_read_bad (he : s.events = .read (s.cfg.base + off) bits :: rest) (ho : off < 0x2000)
    (hp : s.porAsserted = false) (hbad : off % 4 ≠ 0 ∨ bits ≠ 32) :
    step s = .next ((s.dequeue rest).answer (.readError 0)) := by
  rw [step_event he, deliver, busRead]
  exact busAccess_bad (s.dequeue rest) _ _ off bits hp ho hbad

/-- A bad write answers a bus error. -/
theorem step_write_bad {v : Word} (he : s.events = .write (s.cfg.base + off) bits v :: rest) (ho : off < 0x2000)
    (hp : s.porAsserted = false) (hbad : off % 4 ≠ 0 ∨ bits ≠ 32) :
    step s = .next ((s.dequeue rest).answer .writeError) := by
  rw [step_event he, deliver, busWrite]
  exact busAccess_bad (s.dequeue rest) _ _ off bits hp ho hbad

end

/-! ### The statements on the window -/

/-- Settles O40: an idle read returns the window word; an idle write is a limb write below NLIMB, and nothing above. -/
theorem operandWindowIdle : Obligations.OperandWindowIdle := by
  intro s i j rest hb hj
  refine ⟨fun h => ⟨_, step_windowRead h (by omega) hb, s.windowRead_toNat i hj⟩, fun v h => ?_⟩
  by_cases hn : j < s.cfg.nlimb
  · refine ⟨_, step_windowWrite_lt h hb hj hn, rfl, fun r hr => (s.dequeue rest).writeLimb_get_ne j v hr, ?_⟩
    rw [if_pos hn, State.answer_reg, State.answer_marks, State.writeLimb_reg_same, State.writeLimb_marks_same]
    exact ⟨withLimb_div_mod_same _ j v, fun k hk => withLimb_div_mod_ne _ v hk, rfl⟩
  · refine ⟨_, step_windowWrite_ge h hb hj hn, rfl, fun _ _ => rfl, ?_⟩
    rw [if_neg hn]
    rfl

/-- Settles O41: the offset 0x1000 divides the accesses that only set BUSYACC from those the control registers answer. -/
theorem operandWindowBusy : Obligations.OperandWindowBusy := by
  intro s off rest hb
  refine ⟨fun ho => ⟨fun h => ?_, fun v h => ?_⟩, fun ho => ⟨fun h => ⟨_, step_controlRead h ho⟩, fun v h => ?_⟩⟩
  · rw [step_read h, State.hostRead_window_busy (s.dequeue rest) ho hb]
    rfl
  · rw [step_write h, State.hostWrite_window_busy (s.dequeue rest) v ho hb]
    rfl
  · exact ⟨_, step_controlWrite h ho, rfl, State.busyacc_of_controlWrite (s := s.dequeue rest) ho⟩

/-- Settles O42: the bus port answers a bad access with its error alone, and `accessFault` asks for just such an access. -/
theorem badAccessBusError : Obligations.BadAccessBusError := by
  intro s off bits rest ho hp hbad
  refine ⟨fun he => ⟨step_read_bad he ho hp hbad, ?_⟩, fun v he => ⟨step_write_bad he ho hp hbad, ?_⟩⟩
  · rw [accessFault, he]
    exact takesAccess_not_good ho hp hbad
  · rw [accessFault, he]
    exact takesAccess_not_good ho hp hbad

end Sys2Proof.Machine

/-! SUPPORT. The legal words (spec 30_encoding.md): a word is legal when a row of the opcode map matches it, and a row matches
a word when each field is what its part of the mask asks for. -/

namespace Sys2Proof.Machine

/-! ### What a mask asks of a field (R94's note on masks) -/

/-- An unused register field is covered whole. -/
theorem and_unusedMask_iff (f : BitVec 4) : f &&& 0xF = 0 ↔ f.toNat = 0 := by
  revert f
  decide

/-- Of a used register field only bit 3 is covered. -/
theorem and_usedMask_iff (f : BitVec 4) : f &&& 8 = 0 ↔ f.toNat ≤ 7 := by
  revert f
  decide

/-- OP, and an unused IMM8, are covered whole. -/
theorem and_byteMask_iff (b p : BitVec 8) : b &&& 0xFF = p ↔ b.toNat = p.toNat := by
  rw [show (0xFF : BitVec 8) = BitVec.allOnes 8 from rfl, BitVec.and_allOnes, BitVec.toNat_inj]

/-- R97's test of a row on the fields of any word. -/
theorem matchesRow_fields (w : Word) (m : Mnemonic) (p q : BitVec 8) (mrd mra mrb mrm : BitVec 4) (mimm : BitVec 8) :
    matchesRow w ⟨m, packWord p 0 0 0 0 0, packWord q mrd mra mrb mrm mimm⟩ = true ↔
      (opField w &&& q = p ∧ rdField w &&& mrd = 0 ∧ raField w &&& mra = 0 ∧ rbField w &&& mrb = 0 ∧
        rmField w &&& mrm = 0 ∧ immField w &&& mimm = 0) ∧ (m = .mrtest → immField w ≠ 0) := by
  rw [← matchesRow_packWord, packWord_fields]

/-! ### The legal words -/

/-- A word is decoded exactly when a row matches it (R97). -/
theorem decode_isInstr_iff (w : Word) : (∃ i, decode w = .instr i) ↔ ∃ r ∈ opcodeTable, matchesRow w r = true := by
  rw [← List.find?_isSome, Option.isSome_iff_exists, decode]
  cases opcodeTable.find? (matchesRow w) <;> simp

/-- The rows of the opcode map are the words `LegalWord` lists: row by row, each field's mask becomes what R94 asks of that
field, and the two lists differ in order only (`LegalWord` has GCD beside MULLO and MULHI). -/
theorem exists_matchesRow_iff_legalWord (w : Word) : (∃ r ∈ opcodeTable, matchesRow w r = true) ↔ LegalWord w := by
  simp only [opcodeTable_packed, packedTable, List.exists_mem_cons_iff, List.not_mem_nil, false_and, exists_false, or_false,
    matchesRow_fields, and_unusedMask_iff, and_usedMask_iff, and_byteMask_iff, ← BitVec.toNat_ne_iff_ne]
  simp only [BitVec.ofNat_eq_ofNat, BitVec.reduceToNat, BitVec.and_zero, reduceCtorEq, false_imp_iff, true_imp_iff,
    and_true, LegalWord, or_and_right]
  exact iff_of_eq (by ac_rfl)

/-- Settles O3: a word is decoded when a row matches it, and the rows' tests are the legal words' conditions. -/
theorem legalWordsByFields : Obligations.LegalWordsByFields :=
  fun w => (decode_isInstr_iff w).trans (exists_matchesRow_iff_legalWord w)

end Sys2Proof.Machine

/-! SUPPORT. MRTEST in deterministic mode (spec 40_primality.md): the verdict of the rounds on the base registers, and
the base check before them. -/

namespace Sys2Proof.Machine

/-! ### The verdict of the rounds (R125, R126) -/

/-- With a base for every round the rounds end in a verdict, which is 1 exactly when every base accepts. -/
theorem runRounds_verdict_of_le_length (n r d : Nat) {k : Nat} {as : List Nat} (used : Nat) (hk : k ≤ as.length) :
    ∃ v u, runRounds n r d k as used = .verdict v u ∧ (v = true ↔ ∀ a ∈ as.take k, mrRound n r d a = true) := by
  rcases runRounds_spec n r d k as used with ⟨he, -, hall⟩ | ⟨m, a, hm, ha, hrej, -, he⟩ | ⟨-, hlt, -⟩
  · exact ⟨true, _, he, iff_of_true rfl hall⟩
  · refine ⟨false, _, he, iff_of_false Bool.false_ne_true fun hall => ?_⟩
    have hmem : a ∈ as.take k := List.mem_of_getElem? (by rwa [List.getElem?_take_of_lt hm])
    exact Bool.false_ne_true (hrej.symm.trans (hall a hmem))
  · omega

@[simp] theorem State.length_detBases (s : State) (rb : Reg) (k : Nat) : (s.detBases rb k).length = k := by
  simp [State.detBases]

/-- The bases of the first k rounds, one by one. -/
theorem State.forall_mem_detBases (s : State) (rb : Reg) (k : Nat) (P : Nat → Prop) :
    (∀ a ∈ s.detBases rb k, P a) ↔ ∀ i, i < k → P (s.reg (baseReg rb i)) := by
  simp [State.detBases]

section
variable {s : State} {n : Nat} {rb : Reg} {k : Nat}

/-- Once the bases are checked, all k rounds have a base, and the verdict is that of all of them. -/
theorem runDeterministic_of_basesOk (hn : 3 ≤ n) (ho : n % 2 = 1) (hok : s.detBasesOk n rb k = true) :
    ∃ v, runDeterministic n rb k s = .next (s.completeTest v 0) ∧
      (v = true ↔ ∀ i, i < k → BaseAccepts n (s.reg (baseReg rb i))) := by
  obtain ⟨v, u, hv, hiff⟩ :=
    runRounds_verdict_of_le_length n (split n).1 (split n).2 0 (s.length_detBases rb k).ge
  refine ⟨v, by rw [runDeterministic, if_pos hok, hv], ?_⟩
  rw [hiff, List.take_of_length_le (s.length_detBases rb k).le]
  simp only [mrRound_split_iff n _ hn ho]
  exact s.forall_mem_detBases rb k (BaseAccepts n)

/-- A base outside [2, n-2] ends the command before the first round. -/
theorem runDeterministic_of_not_basesOk (hok : s.detBasesOk n rb k = false) :
    runDeterministic n rb k s = .next ((s.setPrime false).raiseError .badBase) :=
  if_neg (ne_true_of_eq_false hok)

end

/-- One base outside [2, n-2] among those of rounds 0 to min(k, 8) - 1 fails the check. -/
theorem State.detBasesOk_eq_false_iff (s : State) (n : Nat) (rb : Reg) (k : Nat) :
    s.detBasesOk n rb k = false ↔
      ∃ i, i < min k 8 ∧ (s.reg (baseReg rb i) < 2 ∨ n - 2 < s.reg (baseReg rb i)) := by
  rw [← Bool.not_eq_true, State.detBasesOk_iff]
  simp only [not_forall, not_and_or, not_le, exists_prop]

/-- An MRTEST on an odd candidate of at least 5, with DETB captured at acceptance, runs the deterministic rounds. -/
theorem exec_mrtest_deterministic {ra rb : Reg} {k : BitVec 8} {s : State} (hk : k ≠ 0) (hd : s.inflightDetb = true)
    (h5 : 5 ≤ s.reg ra) (ho : s.reg ra % 2 = 1) :
    exec (.mrtest ra rb k) s = runDeterministic (s.reg ra) rb k.toNat s :=
  (execMrtest_odd ra rb k s hk h5 ho).trans (if_pos hd)

/-! ### The error completion BAD_BASE (R125, R300) -/

/-- Writing PRIME before the error report leaves it an error completion: `Fails` says nothing of PRIME. -/
theorem State.setPrime_raiseError_fails (s : State) (p : Bool) (c : ErrCode) :
    Fails c s ((s.setPrime p).raiseError c) := by
  simp [Fails, SameHostSide]

/-! ### The statement on the deterministic mode -/

/-- Settles O22: the base check chooses between the rounds, whose verdict is that of all K bases, and BAD_BASE; a candidate
that needs no round is answered before it. -/
theorem mrtestDeterministic : Obligations.MrtestDeterministic := by
  intro ra rb k s hk hd
  refine ⟨fun h5 ho hin => ?_, fun h5 ho hout => ?_, fun htriv => ?_⟩
  · obtain ⟨v, he, hv⟩ := runDeterministic_of_basesOk (by omega) ho ((s.detBasesOk_iff _ rb _).mpr hin)
    obtain ⟨hs, hregs, hprime, hnoinv, hent⟩ := s.completeTest_spec v 0
    exact ⟨_, (exec_mrtest_deterministic hk hd h5 ho).trans he, hs, hregs, hprime ▸ hv, hnoinv, hent⟩
  · have he := runDeterministic_of_not_basesOk ((s.detBasesOk_eq_false_iff _ rb _).mpr hout)
    exact ⟨_, (exec_mrtest_deterministic hk hd h5 ho).trans he, s.setPrime_raiseError_fails _ _, rfl, rfl⟩
  · obtain ⟨hs, -⟩ := s.completeTest_spec (decide (s.reg ra = 2 ∨ s.reg ra = 3)) 0
    exact ⟨_, execMrtest_trivial ra rb k s hk htriv, hs⟩

end Sys2Proof.Machine

/-! SUPPORT. The encoding of one command (spec 30_encoding.md): no two rows of the opcode map match a word, so the words a
command decodes from are those of its row whose fields name its operands. -/

namespace Sys2Proof.Machine

/-! ### The row of a word (R97) -/

theorem matchesRow_iff (w : Word) (r : OpcodeRow) :
    matchesRow w r = true ↔ w &&& r.mask = r.pattern ∧ (r.mnemonic = .mrtest → immField w ≠ 0) := by
  simp only [matchesRow, Bool.and_eq_true, beq_iff_eq, Bool.or_eq_true, bne_iff_ne]
  tauto

/-- Every mask covers OP whole, so a row fixes the OP of the words it matches. -/
theorem opField_of_matchesRow {w : Word} {r : OpcodeRow} (hr : r ∈ opcodeTable) (hw : matchesRow w r = true) :
    opField w = opField r.pattern := by
  have hop : ∀ q ∈ opcodeTable, opField q.mask = BitVec.allOnes 8 := by decide
  obtain ⟨hmask, -⟩ := (matchesRow_iff w r).mp hw
  rw [← hmask, opField, opField, BitVec.extractLsb'_and, ← opField, ← opField, hop r hr, BitVec.and_allOnes]

/-- No two rows have the same OP. -/
theorem row_eq_of_opField : ∀ r ∈ opcodeTable, ∀ q ∈ opcodeTable, opField r.pattern = opField q.pattern → r = q := by
  decide

theorem row_eq_of_mnemonic : ∀ r ∈ opcodeTable, ∀ q ∈ opcodeTable, r.mnemonic = q.mnemonic → r = q := by
  decide

theorem matchesRow_unique {w : Word} {r q : OpcodeRow} (hr : r ∈ opcodeTable) (hq : q ∈ opcodeTable)
    (hwr : matchesRow w r = true) (hwq : matchesRow w q = true) : r = q :=
  row_eq_of_opField r hr q hq ((opField_of_matchesRow hr hwr).symm.trans (opField_of_matchesRow hq hwq))

/-- A word decodes to a command exactly when some row matches it and reads the command from it. -/
theorem decode_eq_instr_iff (w : Word) (i : Instr) :
    decode w = .instr i ↔ ∃ r ∈ opcodeTable, matchesRow w r = true ∧ rowInstr r.mnemonic w = i := by
  rw [decode]
  cases hf : opcodeTable.find? (matchesRow w) with
  | none =>
    rw [List.find?_eq_none] at hf
    exact iff_of_false Decoded.noConfusion fun ⟨r, hr, hw, _⟩ => hf r hr hw
  | some q =>
    have hq := List.mem_of_find?_eq_some hf
    have hwq := List.find?_some hf
    rw [Decoded.instr.injEq]
    refine ⟨fun hi => ⟨q, hq, hwq, hi⟩, ?_⟩
    rintro ⟨r, hr, hw, hi⟩
    rw [matchesRow_unique hq hr hwq hw, hi]

/-! ### The words of a command (R94, R97) -/

/-- The mnemonic of a command. -/
def mnemonicOf : Instr → Mnemonic
  | .nop => .nop
  | .mov _ _ => .mov
  | .ldi _ _ => .ldi
  | .mullo _ _ _ => .mullo
  | .mulhi _ _ _ => .mulhi
  | .modmul _ _ _ _ => .modmul
  | .modexp _ _ _ _ => .modexp
  | .crypt _ _ _ _ => .crypt
  | .gcd _ _ _ => .gcd
  | .modinv _ _ _ => .modinv
  | .mrtest _ _ _ => .mrtest

@[simp] theorem mnemonicOf_rowInstr (m : Mnemonic) (w : Word) : mnemonicOf (rowInstr m w) = m := by
  cases m <;> rfl

/-- A command's encoding is its row, once the row reads the command from a word exactly when the operand fields are as
`operands` says, and these ask for a non-zero IMM8 if the command is an MRTEST. -/
theorem encodedAs_of_row {r : OpcodeRow} {i : Instr} {operands : Word → Prop} (hr : r ∈ opcodeTable)
    (hi : mnemonicOf i = r.mnemonic)
    (hops : ∀ w, w &&& r.mask = r.pattern → (rowInstr r.mnemonic w = i ↔ operands w))
    (himm : r.mnemonic = .mrtest → ∀ w, operands w → immField w ≠ 0) :
    EncodedAs i r.pattern r.mask operands := by
  intro w
  rw [decode_eq_instr_iff]
  constructor
  · rintro ⟨q, hq, hw, rfl⟩
    rw [mnemonicOf_rowInstr] at hi
    obtain rfl := row_eq_of_mnemonic q hq r hr hi
    obtain ⟨hmask, -⟩ := (matchesRow_iff w q).mp hw
    exact ⟨hmask, (hops w hmask).mp rfl⟩
  · rintro ⟨hmask, ho⟩
    exact ⟨r, hr, (matchesRow_iff w r).mpr ⟨hmask, fun hm => himm hm w ho⟩, (hops w hmask).mpr ho⟩

/-- What a mask and pattern say of the register fields. -/
theorem regFields_of_masked {w m p : Word} (h : w &&& m = p) :
    rdField w &&& rdField m = rdField p ∧ raField w &&& raField m = raField p ∧
      rbField w &&& rbField m = rbField p ∧ rmField w &&& rmField m = rmField p := by
  subst h
  exact ⟨BitVec.extractLsb'_and.symm, BitVec.extractLsb'_and.symm, BitVec.extractLsb'_and.symm,
    BitVec.extractLsb'_and.symm⟩

/-- A register field with bit 3 clear names r exactly when it holds r's bits (R92). -/
theorem fieldReg_eq_iff {f : BitVec 4} (hf : f &&& 8 = 0) (r : Reg) : fieldReg f = r ↔ f = regBits r := by
  constructor
  · rintro rfl
    exact (regBits_fieldReg f hf).symm
  · rintro rfl
    exact (regBits_spec r).2

end Sys2Proof.Machine

/-! SUPPORT. GCD and MODINV (spec 41_euclid.md): the encoding of each, the state each leaves, and the statements on them. -/

namespace Sys2Proof.Machine

/-! ### GCD (R140, R141) -/

theorem encodedAs_gcd (rd ra rb : Reg) :
    EncodedAs (.gcd rd ra rb) 0x00000018 0xFFF888FF
      (fun w => rdField w = regBits rd ∧ raField w = regBits ra ∧ rbField w = regBits rb) := by
  refine encodedAs_of_row (r := ⟨.gcd, 0x00000018, 0xFFF888FF⟩) (by decide) rfl (fun w hw => ?_) nofun
  obtain ⟨hrd, hra, hrb, -⟩ := regFields_of_masked hw
  rw [rowInstr, Instr.gcd.injEq, fieldReg_eq_iff hrd, fieldReg_eq_iff hra, fieldReg_eq_iff hrb]

theorem exec_gcd (rd ra rb : Reg) (s : State) :
    exec (.gcd rd ra rb) s = .next (s.writeReg rd (Nat.gcd (s.reg ra) (s.reg rb))).complete := by
  rw [exec, execGcd, euclid_eq_gcd]

theorem reg_of_exec_gcd {rd ra rb : Reg} {s t : State} (h : exec (.gcd rd ra rb) s = .next t) :
    t.reg rd = Nat.gcd (s.reg ra) (s.reg rb) := by
  obtain rfl := Host.Outcome.next.inj ((exec_gcd rd ra rb s).symm.trans h)
  simp

/-- Settles O17: GCD writes the greatest common divisor to RD and completes. -/
theorem gcdGreatestDivisor : Obligations.GcdGreatestDivisor :=
  fun rd ra rb => ⟨encodedAs_gcd rd ra rb, fun s => ⟨_, exec_gcd rd ra rb s, s.writeReg_complete_spec rd _⟩⟩

/-- Settles O18: both results are the greatest common divisor of the same two values. -/
theorem gcdLaws : Obligations.GcdLaws := by
  intro rd ra rb rd' s t u ht hu
  rw [reg_of_exec_gcd ht, reg_of_exec_gcd hu]
  exact ⟨Nat.gcd_dvd_left _ _, Nat.gcd_dvd_right _ _, fun _ => Nat.dvd_gcd, Nat.gcd_comm _ _⟩

/-! ### MODINV (R142, R144) -/

theorem encodedAs_modinv (rd ra rm : Reg) :
    EncodedAs (.modinv rd ra rm) 0x00000019 0xFF8F88FF
      (fun w => rdField w = regBits rd ∧ raField w = regBits ra ∧ rmField w = regBits rm) := by
  refine encodedAs_of_row (r := ⟨.modinv, 0x00000019, 0xFF8F88FF⟩) (by decide) rfl (fun w hw => ?_) nofun
  obtain ⟨hrd, hra, -, hrm⟩ := regFields_of_masked hw
  rw [rowInstr, Instr.modinv.injEq, fieldReg_eq_iff hrd, fieldReg_eq_iff hra, fieldReg_eq_iff hrm]

section
variable {rd ra rm : Reg} {s : State}

theorem exec_modinv_zero (hm : s.reg rm = 0) :
    exec (.modinv rd ra rm) s = .next ((s.setNoinv false).raiseError .badModulus) := by
  rw [exec, execModinv, if_pos hm]

theorem exec_modinv_noInverse (hm : s.reg rm ≠ 0) (hg : Nat.gcd (s.reg ra) (s.reg rm) ≠ 1) :
    exec (.modinv rd ra rm) s = .next (s.setNoinv true).complete := by
  rcases modInverse_spec (s.reg ra) (s.reg rm) (Nat.pos_of_ne_zero hm) with ⟨hnone, -⟩ | ⟨v, -, h1, -⟩
  · rw [exec, execModinv, if_neg hm, hnone]
  · exact absurd h1 hg

theorem exec_modinv_inverse (hm : s.reg rm ≠ 0) (hg : Nat.gcd (s.reg ra) (s.reg rm) = 1) :
    ∃ v, exec (.modinv rd ra rm) s = .next ((s.writeReg rd v).setNoinv false).complete ∧ v < s.reg rm ∧
      (s.reg ra * v) % s.reg rm = 1 % s.reg rm := by
  rcases modInverse_spec (s.reg ra) (s.reg rm) (Nat.pos_of_ne_zero hm) with ⟨-, h1⟩ | ⟨v, hsome, -, hlt, hinv⟩
  · exact absurd hg h1
  · exact ⟨v, by rw [exec, execModinv, if_neg hm, hsome], hlt, hinv⟩

end

/-- Writing NOINV before the error report leaves it an error completion: `Fails` says nothing of NOINV. -/
theorem State.setNoinv_raiseError_fails (s : State) (b : Bool) (c : ErrCode) :
    Fails c s ((s.setNoinv b).raiseError c) := by
  simp [Fails, SameHostSide]

/-- Writing NOINV before completing leaves it a successful completion: `Succeeds` says nothing of NOINV. -/
theorem State.setNoinv_complete_succeeds (s : State) (b : Bool) : Succeeds s (s.setNoinv b).complete := by
  simp [Succeeds, SameHostSide]

theorem State.writeReg_setNoinv_complete_succeeds (s : State) (i : Reg) (v : Nat) (b : Bool) :
    Succeeds s ((s.writeReg i v).setNoinv b).complete := by
  simp [Succeeds, SameHostSide]

/-- Settles O19: the three clauses are the three ways MODINV ends. -/
theorem modinvInverse : Obligations.ModinvInverse := by
  refine fun rd ra rm => ⟨encodedAs_modinv rd ra rm, fun s => ⟨fun hm => ?_, fun hm hg => ?_, fun hm hg => ?_⟩⟩
  · exact ⟨_, exec_modinv_zero hm, s.setNoinv_raiseError_fails _ _, rfl, rfl⟩
  · exact ⟨_, exec_modinv_noInverse hm hg, s.setNoinv_complete_succeeds _, rfl, rfl, rfl, rfl⟩
  · obtain ⟨v, he, hlt, hinv⟩ := exec_modinv_inverse (rd := rd) hm hg
    exact ⟨_, v, he, s.writeReg_setNoinv_complete_succeeds rd v _, hlt, hinv, s.writeReg_writesOnly rd v, rfl, rfl, rfl⟩

/-- A unit modulo m can be cancelled, so it has one inverse below m. -/
theorem inverse_unique {a m v x : Nat} (hg : Nat.gcd a m = 1) (hv : v < m) (hx : x < m)
    (h : a * v % m = a * x % m) : v = x :=
  (Nat.ModEq.cancel_left_of_coprime (Nat.gcd_comm a m ▸ hg) h).eq_of_lt_of_lt hv hx

/-- Settles O20: whether the gcd is 1 decides how MODINV ends, and with it NOINV; the result is an inverse below m, and there
is no other. -/
theorem modinvLaws : Obligations.ModinvLaws := by
  intro rd ra rm s t hm h
  by_cases hg : Nat.gcd (s.reg ra) (s.reg rm) = 1
  · obtain ⟨v, he, hlt, hinv⟩ := exec_modinv_inverse (rd := rd) (Nat.ne_zero_of_lt hm) hg
    obtain rfl := Host.Outcome.next.inj (he.symm.trans h)
    refine ⟨iff_of_true rfl hg, fun _ x => ?_⟩
    rw [State.complete_reg, State.setNoinv_reg, State.writeReg_reg_same]
    constructor
    · rintro rfl
      exact ⟨hlt, hinv⟩
    · rintro ⟨hxlt, hxinv⟩
      exact inverse_unique hg hlt hxlt (hinv.trans hxinv.symm)
  · obtain rfl := Host.Outcome.next.inj ((exec_modinv_noInverse (Nat.ne_zero_of_lt hm) hg).symm.trans h)
    exact ⟨iff_of_false Bool.noConfusion hg, Bool.noConfusion⟩

end Sys2Proof.Machine

/-! SUPPORT. MULLO, MULHI and MODMUL (spec 42_multiply.md): the encoding of each, the state each leaves, and the statements on
them. -/

namespace Sys2Proof.Machine

/-! ### MULLO (R160) -/

theorem encodedAs_mullo (rd ra rb : Reg) :
    EncodedAs (.mullo rd ra rb) 0x00000008 0xFFF888FF
      (fun w => rdField w = regBits rd ∧ raField w = regBits ra ∧ rbField w = regBits rb) := by
  refine encodedAs_of_row (r := ⟨.mullo, 0x00000008, 0xFFF888FF⟩) (by decide) rfl (fun w hw => ?_) nofun
  obtain ⟨hrd, hra, hrb, -⟩ := regFields_of_masked hw
  rw [rowInstr, Instr.mullo.injEq, fieldReg_eq_iff hrd, fieldReg_eq_iff hra, fieldReg_eq_iff hrb]

theorem exec_mullo (rd ra rb : Reg) (s : State) :
    exec (.mullo rd ra rb) s = .next (s.writeReg rd (s.reg ra * s.reg rb % 2 ^ s.cfg.nbits)).complete := rfl

theorem reg_of_exec_mullo {rd ra rb : Reg} {s t : State} (h : exec (.mullo rd ra rb) s = .next t) :
    t.reg rd = s.reg ra * s.reg rb % 2 ^ s.cfg.nbits := by
  obtain rfl := Host.Outcome.next.inj ((exec_mullo rd ra rb s).symm.trans h)
  simp

/-- Settles O11: MULLO writes the product modulo 2^NBITS to RD and completes. The product is of the values before the write,
so RD may be an operand. -/
theorem mulloLowHalf : Obligations.MulloLowHalf :=
  fun rd ra rb => ⟨encodedAs_mullo rd ra rb, fun s => ⟨_, exec_mullo rd ra rb s, s.writeReg_complete_spec rd _⟩⟩

/-! ### MULHI (R161) -/

theorem encodedAs_mulhi (rd ra rb : Reg) :
    EncodedAs (.mulhi rd ra rb) 0x00000009 0xFFF888FF
      (fun w => rdField w = regBits rd ∧ raField w = regBits ra ∧ rbField w = regBits rb) := by
  refine encodedAs_of_row (r := ⟨.mulhi, 0x00000009, 0xFFF888FF⟩) (by decide) rfl (fun w hw => ?_) nofun
  obtain ⟨hrd, hra, hrb, -⟩ := regFields_of_masked hw
  rw [rowInstr, Instr.mulhi.injEq, fieldReg_eq_iff hrd, fieldReg_eq_iff hra, fieldReg_eq_iff hrb]

theorem exec_mulhi (rd ra rb : Reg) (s : State) :
    exec (.mulhi rd ra rb) s = .next (s.writeReg rd (s.reg ra * s.reg rb / 2 ^ s.cfg.nbits)).complete := rfl

/-- The high half of a product of two values below m: below a, which is itself at most m - 1. -/
theorem mul_div_le_sub_two {a b m : Nat} (ha : a < m) (hb : b < m) : a * b / m ≤ m - 2 := by
  rcases Nat.eq_zero_or_pos a with rfl | hpos
  · simp
  · have hlt : a * b / m < a := Nat.div_lt_of_lt_mul (Nat.mul_comm m a ▸ Nat.mul_lt_mul_of_pos_left hb hpos)
    omega

/-- Settles O12: MULHI writes the quotient of the product by 2^NBITS to RD; the bound is that of two values below 2^NBITS, and
quotient and remainder give the product back. -/
theorem mulhiHighHalf : Obligations.MulhiHighHalf := by
  refine fun rd ra rb => ⟨encodedAs_mulhi rd ra rb, fun s => ?_⟩
  obtain ⟨hs, hw, hv⟩ := s.writeReg_complete_spec rd (s.reg ra * s.reg rb / 2 ^ s.cfg.nbits)
  refine ⟨_, exec_mulhi rd ra rb s, hs, hw, hv, fun _ hfit => ?_⟩
  rw [State.complete_reg, State.writeReg_reg_same]
  refine ⟨mul_div_le_sub_two (hfit ra).1 (hfit rb).1, fun rd' u hu => ?_⟩
  rw [reg_of_exec_mullo hu, Nat.div_add_mod']

/-! ### MODMUL (R162) -/

theorem encodedAs_modmul (rd ra rb rm : Reg) :
    EncodedAs (.modmul rd ra rb rm) 0x0000000A 0xFF8888FF
      (fun w => rdField w = regBits rd ∧ raField w = regBits ra ∧ rbField w = regBits rb ∧ rmField w = regBits rm) := by
  refine encodedAs_of_row (r := ⟨.modmul, 0x0000000A, 0xFF8888FF⟩) (by decide) rfl (fun w hw => ?_) nofun
  obtain ⟨hrd, hra, hrb, hrm⟩ := regFields_of_masked hw
  rw [rowInstr, Instr.modmul.injEq, fieldReg_eq_iff hrd, fieldReg_eq_iff hra, fieldReg_eq_iff hrb, fieldReg_eq_iff hrm]

theorem exec_modmul_odd {rd ra rb rm : Reg} {s : State} (hm : s.reg rm % 2 = 1) :
    exec (.modmul rd ra rb rm) s = .next (s.writeReg rd (s.reg ra * s.reg rb % s.reg rm)).complete := by
  rw [exec, execModmul, if_pos ((oddModulus_iff _).mpr hm)]

theorem exec_modmul_even {rd ra rb rm : Reg} {s : State} (hm : s.reg rm % 2 = 0) :
    exec (.modmul rd ra rb rm) s = .next (s.raiseError .badModulus) := by
  rw [exec, execModmul, if_neg (by simp [oddModulus_iff, hm])]

/-- Settles O13: the parity of the modulus decides how MODMUL ends. -/
theorem modmulProduct : Obligations.ModmulProduct := by
  refine fun rd ra rb rm => ⟨encodedAs_modmul rd ra rb rm, fun s => ⟨fun hm => ?_, fun hm => ?_⟩⟩
  · exact ⟨_, exec_modmul_odd hm, s.writeReg_complete_spec rd _⟩
  · exact ⟨_, exec_modmul_even hm, s.raiseError_fails _, rfl, rfl, rfl⟩

end Sys2Proof.Machine

/-! SUPPORT. MODEXP and CRYPT (spec 43_modexp.md): the encoding of each, the state each leaves, and the statements on them. -/

namespace Sys2Proof.Machine

/-- On an odd modulus, which is not 0, the engine's result is the power (R180). -/
theorem modExp_of_odd {a e m : Nat} (hm : m % 2 = 1) : modExp a e m = a ^ e % m :=
  modExp_eq a e m (Nat.odd_iff.mpr hm).pos

theorem not_oddModulus_of_even {m : Nat} (hm : m % 2 = 0) : ¬ oddModulus m = true := by
  simp [oddModulus_iff, hm]

/-- An error report alone is the whole error completion: it writes neither PRIME nor NOINV and takes no entropy (R300). -/
theorem State.raiseError_spec (s : State) (c : ErrCode) : Fails c s (s.raiseError c) ∧ SameVerdicts s (s.raiseError c) :=
  ⟨s.raiseError_fails c, rfl, rfl, rfl⟩

/-! ### MODEXP (R181) -/

theorem encodedAs_modexp (rd ra rb rm : Reg) :
    EncodedAs (.modexp rd ra rb rm) 0x00000010 0xFF8888FF
      (fun w => rdField w = regBits rd ∧ raField w = regBits ra ∧ rbField w = regBits rb ∧ rmField w = regBits rm) := by
  refine encodedAs_of_row (r := ⟨.modexp, 0x00000010, 0xFF8888FF⟩) (by decide) rfl (fun w hw => ?_) nofun
  obtain ⟨hrd, hra, hrb, hrm⟩ := regFields_of_masked hw
  rw [rowInstr, Instr.modexp.injEq, fieldReg_eq_iff hrd, fieldReg_eq_iff hra, fieldReg_eq_iff hrb, fieldReg_eq_iff hrm]

theorem exec_modexp_odd {rd ra rb rm : Reg} {s : State} (hm : s.reg rm % 2 = 1) :
    exec (.modexp rd ra rb rm) s = .next (s.writeReg rd (s.reg ra ^ s.reg rb % s.reg rm)).complete := by
  rw [exec, execModexp, if_pos ((oddModulus_iff _).mpr hm), modExp_of_odd hm]

theorem exec_modexp_even {rd ra rb rm : Reg} {s : State} (hm : s.reg rm % 2 = 0) :
    exec (.modexp rd ra rb rm) s = .next (s.raiseError .badModulus) := by
  rw [exec, execModexp, if_neg (not_oddModulus_of_even hm)]

/-- Settles O14: the parity of the modulus alone decides how MODEXP ends. -/
theorem modexpPower : Obligations.ModexpPower := by
  refine fun rd ra rb rm => ⟨encodedAs_modexp rd ra rb rm, fun s => ⟨fun hm => ?_, fun hm => ?_⟩⟩
  · exact ⟨_, exec_modexp_odd hm, s.writeReg_complete_spec rd _⟩
  · exact ⟨_, exec_modexp_even hm, s.raiseError_spec _⟩

/-! ### CRYPT (R182, R304) -/

theorem encodedAs_crypt (rd ra rb rm : Reg) :
    EncodedAs (.crypt rd ra rb rm) 0x00000011 0xFF8888FF
      (fun w => rdField w = regBits rd ∧ raField w = regBits ra ∧ rbField w = regBits rb ∧ rmField w = regBits rm) := by
  refine encodedAs_of_row (r := ⟨.crypt, 0x00000011, 0xFF8888FF⟩) (by decide) rfl (fun w hw => ?_) nofun
  obtain ⟨hrd, hra, hrb, hrm⟩ := regFields_of_masked hw
  rw [rowInstr, Instr.crypt.injEq, fieldReg_eq_iff hrd, fieldReg_eq_iff hra, fieldReg_eq_iff hrb, fieldReg_eq_iff hrm]

section
variable {rd ra rb rm : Reg} {s : State}

theorem exec_crypt_inRange (hm : s.reg rm % 2 = 1) (hx : s.reg ra < s.reg rm) :
    exec (.crypt rd ra rb rm) s = .next (s.writeReg rd (s.reg ra ^ s.reg rb % s.reg rm)).complete := by
  rw [exec, execCrypt, if_pos ((oddModulus_iff _).mpr hm), if_pos hx, modExp_of_odd hm]

theorem exec_crypt_outOfRange (hm : s.reg rm % 2 = 1) (hx : s.reg rm ≤ s.reg ra) :
    exec (.crypt rd ra rb rm) s = .next (s.raiseError .invalidRange) := by
  rw [exec, execCrypt, if_pos ((oddModulus_iff _).mpr hm), if_neg hx.not_gt]

theorem exec_crypt_even (hm : s.reg rm % 2 = 0) :
    exec (.crypt rd ra rb rm) s = .next (s.raiseError .badModulus) := by
  rw [exec, execCrypt, if_neg (not_oddModulus_of_even hm)]

end

/-- Settles O15: the three clauses are the three ways CRYPT ends. The parity of the modulus is looked at first (R309), so an
even one is BAD_MODULUS whatever the message is. -/
theorem cryptPower : Obligations.CryptPower := by
  refine fun rd ra rb rm => ⟨encodedAs_crypt rd ra rb rm, fun s => ⟨fun hm hx => ?_, fun hm hx => ?_, fun hm => ?_⟩⟩
  · exact ⟨_, exec_crypt_inRange hm hx, s.writeReg_complete_spec rd _⟩
  · exact ⟨_, exec_crypt_outOfRange hm hx, s.raiseError_spec _⟩
  · exact ⟨_, exec_crypt_even hm, s.raiseError_spec _⟩

end Sys2Proof.Machine

/-! SUPPORT. NOP, MOV and LDI (spec 44_utility.md): the encoding of each, the state each leaves, and the statements on them. -/

namespace Sys2Proof.Machine

/-! ### NOP (R200) -/

theorem encodedAs_nop : EncodedAs .nop 0x00000000 0xFFFFFFFF (fun _ => True) :=
  encodedAs_of_row (r := ⟨.nop, 0x00000000, 0xFFFFFFFF⟩) (by decide) rfl (fun _ _ => iff_of_true rfl trivial) nofun

/-- NOP's row is the only one with OP = 0x00, and its mask covers the whole word. -/
theorem eq_zero_of_matchesRow {w : Word} {r : OpcodeRow} (hop : opField w = 0x00) (hr : r ∈ opcodeTable)
    (hw : matchesRow w r = true) : w = 0 := by
  have hrow : r = ⟨.nop, 0x00000000, 0xFFFFFFFF⟩ :=
    row_eq_of_opField r hr _ (by decide) ((opField_of_matchesRow hr hw).symm.trans hop)
  obtain ⟨hmask, -⟩ := (matchesRow_iff w r).mp hw
  rw [hrow] at hmask
  exact BitVec.and_allOnes.symm.trans hmask

theorem decode_illegal_of_opField_zero {w : Word} (hop : opField w = 0x00) (hne : w ≠ 0) :
    ∃ r, decode w = .illegal r := by
  cases hd : decode w with
  | illegal r => exact ⟨r, rfl⟩
  | instr i =>
    obtain ⟨r, hr, hw, -⟩ := (decode_eq_instr_iff w i).mp hd
    exact absurd (eq_zero_of_matchesRow hop hr hw) hne

theorem exec_nop (s : State) : exec .nop s = .next s.complete := rfl

/-- Completing alone changes INFLIGHT and DONE only (R49). -/
theorem State.complete_spec (s : State) :
    Succeeds s s.complete ∧ s.complete.regs = s.regs ∧ SameVerdicts s s.complete :=
  ⟨s.complete_succeeds, rfl, rfl, rfl, rfl⟩

/-- IRQ is CTRL.IE once DONE is set (R43). -/
@[simp] theorem State.complete_irq (s : State) : s.complete.irq = s.ie := Bool.and_true s.ie

/-- Settles O8: NOP is `complete` alone. ERR and ERRCODE are 0 after it because its acceptance cleared them. -/
theorem nopOnlyCompletes : Obligations.NopOnlyCompletes := by
  refine ⟨encodedAs_nop, fun _ => decode_illegal_of_opField_zero, fun s => ?_, fun s => ?_⟩
  · exact ⟨_, exec_nop s, s.complete_spec⟩
  · exact ⟨_, exec_nop (s.accept 0), rfl, rfl, rfl, rfl, (s.accept 0).complete_irq⟩

/-! ### MOV (R201) -/

theorem encodedAs_mov (rd ra : Reg) :
    EncodedAs (.mov rd ra) 0x00000001 0xFFFF88FF (fun w => rdField w = regBits rd ∧ raField w = regBits ra) := by
  refine encodedAs_of_row (r := ⟨.mov, 0x00000001, 0xFFFF88FF⟩) (by decide) rfl (fun w hw => ?_) nofun
  obtain ⟨hrd, hra, -⟩ := regFields_of_masked hw
  rw [rowInstr, Instr.mov.injEq, fieldReg_eq_iff hrd, fieldReg_eq_iff hra]

theorem exec_mov (rd ra : Reg) (s : State) : exec (.mov rd ra) s = .next (s.writeReg rd (s.reg ra)).complete := rfl

/-- RA is the one operand of a MOV (R22, R23). -/
theorem readsUnwritten_mov (rd ra : Reg) (s : State) : readsUnwritten s (.mov rd ra) = !s.regWritten ra := by
  simp [readsUnwritten, operandRegs]

/-- Settles O9: MOV writes the held value of RA to RD and completes. -/
theorem movCopiesRegister : Obligations.MovCopiesRegister := by
  refine fun rd ra => ⟨encodedAs_mov rd ra, fun s => ⟨?_, ?_⟩⟩
  · exact ⟨_, exec_mov rd ra s, s.writeReg_complete_spec rd _⟩
  · rw [readsUnwritten_mov, Bool.not_eq_false']

/-! ### LDI (R202) -/

theorem encodedAs_ldi (rd : Reg) (v : BitVec 8) :
    EncodedAs (.ldi rd v) 0x00000002 0x00FFF8FF (fun w => rdField w = regBits rd ∧ immField w = v) := by
  refine encodedAs_of_row (r := ⟨.ldi, 0x00000002, 0x00FFF8FF⟩) (by decide) rfl (fun w hw => ?_) nofun
  obtain ⟨hrd, -⟩ := regFields_of_masked hw
  rw [rowInstr, Instr.ldi.injEq, fieldReg_eq_iff hrd]

theorem exec_ldi (rd : Reg) (v : BitVec 8) (s : State) :
    exec (.ldi rd v) s = .next (s.writeReg rd v.toNat).complete := rfl

/-- Settles O10: LDI writes the zero-extended immediate to RD and completes. -/
theorem ldiLoadsImmediate : Obligations.LdiLoadsImmediate :=
  fun rd v => ⟨encodedAs_ldi rd v, fun s => ⟨_, exec_ldi rd v s, s.writeReg_complete_spec rd _⟩⟩

end Sys2Proof.Machine

/-! SUPPORT. Error completions (spec 60_exceptions.md): what causes each code, what the engine's turn that raises it leaves, and
how the host acknowledges it. -/

namespace Sys2Proof.Machine

/-! ### The cause of each error (R301, R302, R309) -/

/-- What makes command i end in this error code in state s. -/
inductive ErrorCause (s : State) : Instr → ErrCode → Prop
  /-- The Montgomery units take no even modulus (R183, R303). -/
  | evenModulus {i : Instr} {rd ra rb rm : Reg}
      (hi : i = .modmul rd ra rb rm ∨ i = .modexp rd ra rb rm ∨ i = .crypt rd ra rb rm) (hm : s.reg rm % 2 = 0) :
      ErrorCause s i .badModulus
  /-- MODINV takes no modulus 0 (R142). -/
  | zeroModulus {rd ra rm : Reg} (hm : s.reg rm = 0) : ErrorCause s (.modinv rd ra rm) .badModulus
  /-- CRYPT takes no message that is not below the modulus (R182, R304). -/
  | outOfRange {rd ra rb rm : Reg} (hm : s.reg rm % 2 = 1) (hx : s.reg rm ≤ s.reg ra) :
      ErrorCause s (.crypt rd ra rb rm) .invalidRange
  /-- A deterministic round takes no base outside [2, n-2] (R125). -/
  | badBase {ra rb : Reg} {k : BitVec 8} {i : Nat} (hd : s.inflightDetb = true) (h5 : 5 ≤ s.reg ra)
      (ho : s.reg ra % 2 = 1) (hi : i < min k.toNat 8)
      (hout : s.reg (baseReg rb i) < 2 ∨ s.reg ra - 2 < s.reg (baseReg rb i)) : ErrorCause s (.mrtest ra rb k) .badBase
  /-- An MRTEST with K = 0, which no word decodes to (log 16). -/
  | zeroRounds {ra rb : Reg} : ErrorCause s (.mrtest ra rb 0) .illegalCmd

/-- The registers `baseRegs` lists, by round. -/
theorem mem_baseRegs_iff {ra rb r : Reg} {k : BitVec 8} {s : State} :
    r ∈ baseRegs ra rb k s ↔
      (s.inflightDetb = true ∧ 5 ≤ s.reg ra ∧ s.reg ra % 2 = 1) ∧ ∃ i, i < min k.toNat 8 ∧ baseReg rb i = r := by
  unfold baseRegs
  split <;> simp [*]

theorem errorCause_of_firstError {s : State} {i : Instr} {c : ErrCode} (h : firstError s i = some c) :
    ErrorCause s i c := by
  cases i with
  | nop | mov | ldi | mullo | mulhi | gcd => nomatch h
  | modmul rd ra rb rm =>
    obtain ⟨hm, rfl⟩ : s.reg rm % 2 = 0 ∧ .badModulus = c := by simpa [firstError] using h
    exact .evenModulus (Or.inl rfl) hm
  | modexp rd ra rb rm =>
    obtain ⟨hm, rfl⟩ : s.reg rm % 2 = 0 ∧ .badModulus = c := by simpa [firstError] using h
    exact .evenModulus (Or.inr (Or.inl rfl)) hm
  | crypt rd ra rb rm =>
    by_cases hm : s.reg rm % 2 = 0
    · obtain rfl : .badModulus = c := by simpa [firstError, hm] using h
      exact .evenModulus (Or.inr (Or.inr rfl)) hm
    · obtain ⟨hx, rfl⟩ : s.reg rm ≤ s.reg ra ∧ .invalidRange = c := by simpa [firstError, hm] using h
      exact .outOfRange (Nat.mod_two_ne_zero.mp hm) hx
  | modinv rd ra rm =>
    obtain ⟨hm, rfl⟩ : s.reg rm = 0 ∧ .badModulus = c := by simpa [firstError] using h
    exact .zeroModulus hm
  | mrtest ra rb k =>
    by_cases hk : k = 0
    · obtain rfl : .illegalCmd = c := by simpa [firstError, hk] using h
      exact hk ▸ .zeroRounds
    · rw [firstError, if_neg hk] at h
      obtain ⟨⟨r, hr, hout⟩, rfl⟩ : (∃ r ∈ baseRegs ra rb k s, s.reg r < 2 ∨ s.reg ra - 2 < s.reg r) ∧ .badBase = c := by
        simpa using h
      obtain ⟨⟨hd, h5, ho⟩, i, hi, rfl⟩ := mem_baseRegs_iff.mp hr
      exact .badBase hd h5 ho hi hout

/-- The row of MRTEST asks for a non-zero IMM8 (R93, R97). -/
theorem rounds_ne_zero_of_decode {w : Word} {ra rb : Reg} {k : BitVec 8} (h : decode w = .instr (.mrtest ra rb k)) :
    k ≠ 0 := by
  obtain ⟨r, -, hw, hi⟩ := (decode_eq_instr_iff w _).mp h
  have hm : r.mnemonic = .mrtest := by rw [← mnemonicOf_rowInstr r.mnemonic w, hi, mnemonicOf]
  rw [hm, rowInstr, Instr.mrtest.injEq] at hi
  obtain ⟨-, -, rfl⟩ := hi
  obtain ⟨-, himm⟩ := (matchesRow_iff w r).mp hw
  exact himm hm

/-! ### The engine's turn that ends in an error (R300) -/

/-- The states an error completion leaves: the report, and before it the writes of PRIME and NOINV (R300). -/
inductive ErrorTurn (s : State) : State → Prop
  /-- An illegal word (R302). -/
  | illegalWord {r : IllegalReason} (hd : decode s.inflightWord = .illegal r) : ErrorTurn s (s.raiseError .illegalCmd)
  /-- A command that meets an error. -/
  | command {i : Instr} {c : ErrCode} {p nv : Bool} (hd : decode s.inflightWord = .instr i) (hc : ErrorCause s i c)
      (hp : (c ≠ .badBase ∧ p = s.prime) ∨ c = .badBase ∧ p = false ∧ ∃ ra rb k, i = .mrtest ra rb k)
      (hn : ((∀ rd ra rm, i ≠ .modinv rd ra rm) ∧ nv = s.noinv) ∨
        (∃ rd ra rm, i = .modinv rd ra rm) ∧ c = .badModulus ∧ nv = false) :
      ErrorTurn s (((s.setPrime p).setNoinv nv).raiseError c)

/-- The word of the command in flight. -/
theorem State.inflightWord_of_inflight {s : State} {f : InFlight} (hf : s.inflight = some f) : s.inflightWord = f.word := by
  rw [State.inflightWord, hf]

/-- The engine's turn that sets ERR is an error completion. -/
theorem errorTurn_of_engineStep {s t : State} (h : engineStep s = .next t) (hs : s.err = false) (ht : t.err = true) :
    ErrorTurn s t := by
  rcases engineStep_cases h with ⟨-, rfl⟩ | ⟨f, i, hf, hd, hx⟩ | ⟨f, r, hf, hd, rfl⟩
  · simp [hs] at ht
  · rw [← State.inflightWord_of_inflight hf] at hd
    cases ending_of_exec hx with
    | failed c p nv hfe hp hn => exact .command hd (errorCause_of_firstError hfe) hp hn
    | wrote | kept | verdict | waiting => simp [hs] at ht
  · rw [← State.inflightWord_of_inflight hf] at hd
    exact .illegalWord hd

/-- Writing PRIME and NOINV before the error report leaves it an error completion. -/
theorem State.setPrime_setNoinv_raiseError_fails (s : State) (p nv : Bool) (c : ErrCode) :
    Fails c s (((s.setPrime p).setNoinv nv).raiseError c) := by
  simp [Fails, SameHostSide]

theorem ErrorTurn.fails {s t : State} (h : ErrorTurn s t) : Fails t.errcode s t := by
  cases h with
  | illegalWord => exact s.raiseError_fails _
  | command => exact s.setPrime_setNoinv_raiseError_fails _ _ _

/-- No cause gives the code 0. -/
theorem ErrorCause.ne_noError {s : State} {i : Instr} {c : ErrCode} (h : ErrorCause s i c) : c ≠ .noError := by
  rintro rfl
  nomatch h

theorem ErrorTurn.errcode_ne_noError {s t : State} (h : ErrorTurn s t) : t.errcode ≠ .noError := by
  cases h with
  | illegalWord => exact nofun
  | command _ hc => exact hc.ne_noError

/-! ### The codes' numbers in STATUS (R30, R301) -/

theorem ErrCode.toNat_bits_le (c : ErrCode) : c.bits.toNat ≤ 4 := by
  cases c <;> decide

theorem ErrCode.toNat_bits_eq_zero_iff (c : ErrCode) : c.bits.toNat = 0 ↔ c = .noError := by
  cases c <;> decide

/-- STATUS bits 19:16 are ERRCODE. -/
@[simp] theorem State.statusWord_errcode (s : State) : s.statusWord.extractLsb' 16 4 = s.errcode.bits := by
  simp only [State.statusWord, BitVec.extractLsb'_append_eq_ite]
  simp

/-! ### The statements on error completions -/

/-- Settles O28: the report says nothing of PRIME and NOINV, and the two ways an error completion comes about say what it writes
to them. -/
theorem errorsArePrecise : Obligations.ErrorsArePrecise := by
  intro s t h hs ht
  have hturn := errorTurn_of_engineStep h hs ht
  refine ⟨hturn.fails, ?_⟩
  cases hturn with
  | illegalWord hd => exact ⟨nofun, fun _ => rfl, fun ⟨_, _, _, hi⟩ => (nomatch hd.symm.trans hi), fun _ => rfl⟩
  | command hd hc hp hn =>
    refine ⟨fun hb => ?_, fun hb => ?_, fun ⟨rd, ra, rm, hi⟩ => ?_, fun hi => ?_⟩
    · obtain ⟨hne, -⟩ | ⟨-, hp, ra, rb, k, rfl⟩ := hp
      · exact absurd hb hne
      · exact ⟨⟨ra, rb, k, hd⟩, hp⟩
    · obtain ⟨-, hp⟩ | ⟨hb', -⟩ := hp
      · exact hp
      · exact absurd hb' hb
    · obtain ⟨hne, -⟩ | ⟨-, hc, hn⟩ := hn
      · exact absurd (Decoded.instr.inj (hd.symm.trans hi)) (hne rd ra rm)
      · exact ⟨hc, hn⟩
    · obtain ⟨-, hn⟩ | ⟨⟨rd, ra, rm, rfl⟩, -⟩ := hn
      · exact hn
      · exact absurd ⟨rd, ra, rm, hd⟩ hi

/-- Settles O29: STATUS shows ERRCODE's number, and each cause of an error completion gives its row of the table. -/
theorem errorCodeTable : Obligations.ErrorCodeTable := by
  refine ⟨fun s => ?_, fun s hf => ?_, fun s t h hs ht => ?_⟩
  · rw [State.statusWord_errcode]
    exact s.errcode.toNat_bits_le
  · obtain ⟨herr, -⟩ := hf
    rw [State.statusWord_errcode, ErrCode.toNat_bits_eq_zero_iff, ← Bool.not_eq_true, herr, not_not]
  · have hturn := errorTurn_of_engineStep h hs ht
    refine ⟨hturn.fails, ?_⟩
    rw [State.statusWord_errcode]
    cases hturn with
    | illegalWord hd => exact Or.inl ⟨rfl, _, hd⟩
    | command hd hc hp hn =>
      cases hc with
      | @evenModulus _ rd ra rb rm hi hm =>
        refine Or.inr (Or.inl ⟨rfl, Or.inl ⟨rd, ra, rb, rm, ?_, hm⟩⟩)
        rwa [hd, Decoded.instr.injEq, Decoded.instr.injEq, Decoded.instr.injEq]
      | zeroModulus hm => exact Or.inr (Or.inl ⟨rfl, Or.inr ⟨_, _, _, hd, hm⟩⟩)
      | outOfRange hm hx => exact Or.inr (Or.inr (Or.inl ⟨rfl, _, _, _, _, hd, hm, hx⟩))
      | badBase hdetb h5 ho hi hout =>
        obtain ⟨hne, -⟩ | ⟨-, hp, -⟩ := hp
        · exact absurd rfl hne
        · exact Or.inr (Or.inr (Or.inr ⟨rfl, hp, _, _, _, _, hd, hdetb, h5, ho, hi, hout⟩))
      | zeroRounds => exact absurd rfl (rounds_ne_zero_of_decode hd)

/-- The engine's turn on an illegal word (R302). -/
theorem engineStep_illegal {s : State} {f : InFlight} {r : IllegalReason} (hf : s.inflight = some f)
    (hd : decode f.word = .illegal r) : engineStep s = .next (s.raiseError .illegalCmd) := by
  simp only [engineStep, hf, hd]

/-- Settles O7: the turn is the error report alone. -/
theorem illegalCommandCompletion : Obligations.IllegalCommandCompletion := by
  intro s f r hf hd
  obtain ⟨hfails, hsame⟩ := s.raiseError_spec .illegalCmd
  exact ⟨_, engineStep_illegal hf hd, hfails, State.inflightWord_of_inflight hf, hsame⟩

/-- A CMD write while BUSY = 0 that answers a next state (R46). -/
theorem step_accept {s t : State} {w : Word} {rest : List Event} (h : step s = .next t)
    (hw : NextWrites s 0x010 w rest) (hb : s.busy = false) : t = ((s.dequeue rest).accept w).answer .writeDone := by
  rw [step_controlWrite hw (by norm_num), State.controlWrite_cmd, State.writeCmd_idle (s.dequeue rest) w hb] at h
  exact (Host.Outcome.next.inj h).symm

/-- Settles O50: the STATUS write and the acceptance each clear the report but ERRCMD, and a later turn of the engine changes
ERRCMD only by a report of its own. -/
theorem acknowledgement : Obligations.Acknowledgement := by
  refine ⟨fun s t rest h hack => ?_, fun s t h hs => ⟨fun ht => ?_, fun ht => ?_⟩⟩
  · rcases hack with ⟨v, hw, h1, h2⟩ | ⟨w, hw, hb⟩
    · simp [step_status h hw, h1, h2, -BitVec.getLsbD_eq_getElem]
    · simp [step_accept h hw hb]
  · rcases engineStep_err_errcmd h with ⟨-, hm⟩ | ⟨f, -, -, he, -⟩
    · exact hm
    · simp [ht] at he
  · have hturn := errorTurn_of_engineStep h hs ht
    obtain ⟨-, -, -, -, -, hword, -⟩ := hturn.fails
    exact ⟨hword, hturn.errcode_ne_noError⟩

end Sys2Proof.Machine

/-! SUPPORT. The interrupt (spec 60_exceptions.md): IRQ follows IE and DONE, so what it does is what the engine's turn and the
host's accesses do to those two. -/

namespace Sys2Proof.Machine

/-! ### IRQ as a function of IE and DONE (R43, R310) -/

theorem State.irq_iff (s : State) : s.irq = true ↔ s.ie = true ∧ s.done = true := Bool.and_eq_true_iff

theorem State.irq_eq_false_of_done {s : State} (h : s.done = false) : s.irq = false := by
  rw [State.irq, h, Bool.and_false]

theorem State.irq_eq_false_of_ie {s : State} (h : s.ie = false) : s.irq = false := by
  rw [State.irq, h, Bool.false_and]

/-! ### What sets and clears DONE and IE (R29, R33) -/

/-- A command that does not wait ends with DONE set (R49, R50). -/
theorem Ending.done {i : Instr} {s t : State} (h : Ending i s t) : t = s ∨ t.done = true := by
  cases h with
  | waiting => exact Or.inl rfl
  | wrote | kept | verdict | failed => exact Or.inr rfl

/-- The engine's turn that ends the command in flight sets DONE. -/
theorem engineStep_done {s t : State} (h : engineStep s = .next t) (hb : s.busy = true) (ht : t.busy = false) :
    t.done = true := by
  have hne : t ≠ s := by
    rintro rfl
    simp [hb] at ht
  rcases engineStep_cases h with ⟨-, he⟩ | ⟨f, i, -, -, hx⟩ | ⟨f, r, -, -, rfl⟩
  · exact absurd he hne
  · exact (ending_of_exec hx).done.resolve_left hne
  · rfl

/-- A CTRL write with bit 31 clear that answers a next state (R29). -/
theorem step_ctrl_plain {s t : State} {v : Word} {rest : List Event} (h : step s = .next t)
    (hw : NextWrites s 0x008 v rest) (hv : v.getLsbD 31 = false) :
    t.ie = v.getLsbD 0 ∧ t.done = s.done := by
  rw [step_controlWrite hw (by norm_num), State.controlWrite_ctrl, State.writeCtrl_plain _ hv] at h
  exact Host.Outcome.next.inj h ▸ ⟨rfl, rfl⟩

theorem step_reset_done {s t : State} (h : step s = .next t) (hr : NextResets s) : t.done = false := by
  rcases step_reset h hr with ⟨rest, rfl⟩ | ⟨b, rest, rfl⟩
  · rfl
  · rfl

/-! ### The statements on the interrupt -/

/-- Settles O48: every completion sets DONE and keeps IE, and the CTRL write sets IE and keeps DONE. -/
theorem irqRises : Obligations.IrqRises := by
  refine ⟨State.irq_iff, fun s t hb hie h ht => ?_, fun s t v rest hw hv h0 hd h => ?_⟩
  · obtain ⟨-, hkept, -⟩ := engineStep_sameHostSide h
    exact t.irq_iff.mpr ⟨hkept.trans hie, engineStep_done h hb ht⟩
  · obtain ⟨hie, hdone⟩ := step_ctrl_plain h hw hv
    exact t.irq_iff.mpr ⟨hie.trans h0, hdone.trans hd⟩

/-- Settles O49: three of the four ways clear DONE, and the CTRL write clears IE. -/
theorem irqClears : Obligations.IrqClears := by
  intro s t rest h
  refine ⟨fun v hw hv => ?_, fun w hw hb => ?_, fun v hw hv h0 => ?_, fun hr => ?_⟩
  · have hd : t.done = false := by
      rw [step_status h hw, State.answer_done, State.writeStatus_done, hv, Bool.not_true, Bool.and_false]
    exact ⟨hd, State.irq_eq_false_of_done hd⟩
  · have hd : t.done = false := by rw [step_accept h hw hb, State.answer_done, State.accept_done]
    exact ⟨hd, State.irq_eq_false_of_done hd⟩
  · obtain ⟨hie, hd⟩ := step_ctrl_plain h hw hv
    exact ⟨hd, State.irq_eq_false_of_ie (hie.trans h0)⟩
  · have hd := step_reset_done h hr
    exact ⟨hd, State.irq_eq_false_of_done hd⟩

end Sys2Proof.Machine

/-! SUPPORT. Power-on reset (spec 70_reset_and_hazards.md): what the host reads of the state it leaves, and the step that takes
a level change of its input. -/

namespace Sys2Proof.Machine

/-! ### The power-on values as the host reads them (R44) -/

section
variable (s : State) (b : Bool)

@[simp] theorem State.powerOnReset_ctrlWord : (s.powerOnReset b).ctrlWord = 0 := by
  rw [State.ctrlWord, State.powerOnReset_detb, State.powerOnReset_ie]
  rfl

/-- No flag is set, ERRCODE is NONE and nothing is in flight, so every bit of STATUS is 0 (R30). -/
@[simp] theorem State.powerOnReset_statusWord : (s.powerOnReset b).statusWord = 0 := by
  simp only [State.statusWord, State.powerOnReset_errcode, State.powerOnReset_noinv, State.powerOnReset_prime,
    State.powerOnReset_busyacc, State.powerOnReset_cmdovr, State.powerOnReset_err, State.powerOnReset_done,
    State.powerOnReset_busy]
  rfl

@[simp] theorem State.powerOnReset_irq : (s.powerOnReset b).irq = false :=
  State.irq_eq_false_of_done (s.powerOnReset_done b)

/-- Every limb of every register is marked unwritten, at the block's own NLIMB (R23). -/
@[simp] theorem State.powerOnReset_marks (i : Reg) : (s.powerOnReset b).marks i = List.replicate s.cfg.nlimb false := by
  rw [State.marks, State.powerOnReset_regs, RegFile.get_all, OpReg.unwritten]

end

/-- Either level change of the input resets the block in the step that takes it (R350). -/
theorem step_powerOn {s : State} {b : Bool} {rest : List Event} (he : s.events = .powerOn b :: rest) :
    step s = .next ((s.dequeue rest).powerOnReset b) := by
  rw [step_event he, deliver]

/-! ### The statement on power-on reset -/

/-- Settles O47: the step is the reset, whose values do not depend on the level. -/
theorem powerOnReset : Obligations.PowerOnReset := by
  intro s b rest he
  exact ⟨(s.dequeue rest).powerOnReset b, step_powerOn he, rfl, rfl, rfl, rfl, rfl, rfl, State.powerOnReset_ctrlWord _ _,
    State.powerOnReset_statusWord _ _, rfl, State.powerOnReset_irq _ _, State.powerOnReset_marks _ _⟩

end Sys2Proof.Machine

/-! SUPPORT. The two directions between words and commands (spec 30_encoding.md): the row of the opcode map that matches a word
reads a command from it, and the encoder gives that word back. -/

namespace Sys2Proof.Machine

/-! ### From a command to its word and back (R97, R98) -/

/-- Every command's word matches the command's row, which reads the command back. -/
theorem encodingRow (i : Instr) : Laws.EncodingRow.Statement i := by
  cases i with
  | nop => exact Laws.EncodingRow.nop
  | mov rd ra => exact Laws.EncodingRow.mov rd ra
  | ldi rd imm => exact Laws.EncodingRow.ldi rd imm
  | mullo rd ra rb => exact Laws.EncodingRow.mullo rd ra rb
  | mulhi rd ra rb => exact Laws.EncodingRow.mulhi rd ra rb
  | modmul rd ra rb rm => exact Laws.EncodingRow.modmul rd ra rb rm
  | modexp rd ra rb rm => exact Laws.EncodingRow.modexp rd ra rb rm
  | crypt rd ra rb rm => exact Laws.EncodingRow.crypt rd ra rb rm
  | gcd rd ra rb => exact Laws.EncodingRow.gcd rd ra rb
  | modinv rd ra rm => exact Laws.EncodingRow.modinv rd ra rm
  | mrtest ra rb k => exact Laws.EncodingRow.mrtest ra rb k

/-- Settles O1: a row that matches a word and reads a command from it decides what the word decodes to, and the command's
own row does both. -/
theorem decodeEncodeRoundTrip : Obligations.DecodeEncodeRoundTrip :=
  fun i hi => (decode_eq_instr_iff (encode i) i).mpr (encodingRow i hi)

/-! ### From a word to its command and back (R95, R97) -/

theorem wellFormed_of_decode {w : Word} {i : Instr} (h : decode w = .instr i) : i.wellFormed = true := by
  cases i with
  | mrtest ra rb k => exact bne_iff_ne.mpr (rounds_ne_zero_of_decode h)
  | _ => rfl

/-- A word is packed from given fields when they are its own. -/
theorem packWord_eq_of_fields {w : Word} {op : BitVec 8} {rd ra rb rm : BitVec 4} {imm : BitVec 8} (hop : opField w = op)
    (hrd : rdField w = rd) (hra : raField w = ra) (hrb : rbField w = rb) (hrm : rmField w = rm) (himm : immField w = imm) :
    packWord op rd ra rb rm imm = w := by
  rw [← hop, ← hrd, ← hra, ← hrb, ← hrm, ← himm, packWord_fields]

/-- An all-ones mask leaves a field as it is. -/
theorem and_fullMask (f : BitVec 4) : f &&& 0xF = f := BitVec.and_allOnes

theorem and_fullByteMask (b : BitVec 8) : b &&& 0xFF = b := BitVec.and_allOnes

/-- The operands a row reads are all of a word that its mask leaves open, so the encoder gives the word back. -/
theorem encode_rowInstr {w : Word} :
    ∀ r ∈ opcodeTable, matchesRow w r = true → encode (rowInstr r.mnemonic w) = w := by
  simp only [opcodeTable_packed, packedTable, List.forall_mem_cons, matchesRow_fields, and_fullMask, and_fullByteMask]
  refine ⟨?_, ?_, ?_, ?_, ?_, ?_, ?_, ?_, ?_, ?_, ?_, nofun⟩
  all_goals
    rintro ⟨⟨hop, hrd, hra, hrb, hrm, himm⟩, -⟩
    simp only [rowInstr, encode]
    apply packWord_eq_of_fields <;> simp only [*, regBits_fieldReg]

/-- Settles O2: some row matches the word and reads the command from it, and the encoder undoes the reading. -/
theorem encodeDecodeRoundTrip : Obligations.EncodeDecodeRoundTrip := by
  intro w i h
  refine ⟨wellFormed_of_decode h, ?_⟩
  obtain ⟨r, hr, hw, rfl⟩ := (decode_eq_instr_iff w i).mp h
  exact encode_rowInstr r hr hw

/-- Settles O4: a row fixes the OP of the words it matches, and no two rows have the same OP. -/
theorem atMostOneRowMatches : Obligations.AtMostOneRowMatches :=
  fun _ _ _ hr hq hwr hwq => matchesRow_unique hr hq hwr hwq

/-! ### Example words -/

/-- Settles O5: the decoder is evaluated on each word, and the reason is named for each illegal one. -/
theorem specWordsDecode : Obligations.SpecWordsDecode := by
  refine ⟨by decide, by decide, by decide, by decide, by decide, by decide, by decide, by decide, by decide, by decide,
    by decide, ⟨.unusedField, ?_⟩, ⟨.registerIndex, ?_⟩, ⟨.reservedOpcode, ?_⟩, ⟨.reservedOpcode, ?_⟩, ⟨.unusedField, ?_⟩,
    ⟨.unusedField, ?_⟩, ⟨.unusedField, ?_⟩, ⟨.zeroRounds, ?_⟩⟩
  all_goals decide

end Sys2Proof.Machine

/-! SUPPORT. The invariant of the machine (spec 10_state.md): what power-on reset leaves has it, and the engine's turn, a host
access and a reset each keep it. -/

namespace Sys2Proof.Machine

/-! ### The invariant and power-on reset (R44, R350) -/

/-- The power-on values have the invariant, whatever the state before. -/
theorem State.powerOnReset_inv {s : State} (hl : s.cfg.Legal) (b : Bool) : Inv (s.powerOnReset b) := by
  refine ⟨hl, s.powerOnReset_fits b, ?_, ?_, nofun⟩
  · simp [FlagsAgree]
  · rintro hb
    obtain rfl : b = true := hb
    rfl

/-- Settles O58: the state after reset is what a release of power-on reset leaves. -/
theorem resetHasInv : Obligations.ResetHasInv := by
  have he : State.reset = State.reset.powerOnReset false := rfl
  rw [Obligations.ResetHasInv, he]
  exact State.powerOnReset_inv (by decide) false

/-! ### Steps that leave the parameters and the reset input -/

/-- A step from a state that is not held in reset to one that is not either has three clauses of the invariant to keep. -/
theorem Inv.of_released {s t : State} (h : Inv s) (hcfg : t.cfg = s.cfg) (hp : t.porAsserted = false) (hfit : RegsFit t)
    (hflags : FlagsAgree t) (hrec : ErrorRecorded t) : Inv t := by
  obtain ⟨hl, -⟩ := h
  exact ⟨hcfg ▸ hl, hfit, hflags, fun ht => by simp [hp] at ht, hrec⟩

/-- Taking an event keeps the invariant. -/
theorem Inv.dequeue {s : State} (h : Inv s) (rest : List Event) : Inv (s.dequeue rest) := by
  obtain ⟨hl, hfit, hflags, hheld, hrec⟩ := h
  exact ⟨hl, hfit, hflags, fun hp => congrArg (fun u => u.dequeue rest) (hheld hp), hrec⟩

/-- A bus answer keeps the invariant, once power-on reset is released. -/
theorem Inv.answer {s : State} (h : Inv s) (hp : s.porAsserted = false) (a : BusResponse) : Inv (s.answer a) := by
  obtain ⟨-, hfit, hflags, -, hrec⟩ := id h
  exact h.of_released rfl hp hfit hflags hrec

/-- While power-on reset is asserted no command is in flight. -/
theorem Inv.released_of_inflight {s : State} (h : Inv s) {f : InFlight} (hf : s.inflight = some f) :
    s.porAsserted = false := by
  obtain ⟨-, -, -, hheld, -⟩ := h
  rw [← Bool.not_eq_true]
  intro hp
  have hn : s.inflight = none := by rw [hheld hp]; rfl
  simp [hf] at hn

/-- While a command is in flight no error is reported (R34). -/
theorem Inv.noError_of_inflight {s : State} (h : Inv s) {f : InFlight} (hf : s.inflight = some f) :
    s.err = false ∧ s.errcode = .noError := by
  obtain ⟨-, -, ⟨herr, hbusy⟩, -, -⟩ := h
  obtain ⟨-, he⟩ := hbusy (by rw [State.busy, hf]; rfl)
  exact ⟨he, not_not.mp fun hc => by simp [herr.mpr hc] at he⟩

/-! ### The engine's turn -/

/-- Every cause of an error is among those the failing word can raise (R301); an MRTEST with K = 0 has no word. -/
theorem canRaise_of_errorCause {s : State} {w : Word} {i : Instr} {c : ErrCode} (hd : decode w = .instr i)
    (h : ErrorCause s i c) : canRaise (decode w) c = true := by
  rw [hd]
  cases h with
  | evenModulus hi => rcases hi with rfl | rfl | rfl <;> rfl
  | zeroModulus | outOfRange | badBase => rfl
  | zeroRounds => exact absurd rfl (rounds_ne_zero_of_decode hd)

/-- A completed command leaves no command in flight, and ERR and ERRCODE agree if they did. -/
theorem flagsAgree_of_idle {s : State} (hn : s.inflight = none) (h : s.err = true ↔ s.errcode ≠ .noError) :
    FlagsAgree s := ⟨h, fun hb => by simp [State.busy, hn] at hb⟩

/-- A successful completion, with a register file that fits, keeps the invariant. -/
theorem Inv.of_succeeds {s t : State} {f : InFlight} (h : Inv s) (hf : s.inflight = some f) (hs : Succeeds s t)
    (hfit : RegsFit t) : Inv t := by
  obtain ⟨⟨hcfg, -, -, -, -, hp, -⟩, hn, -, herr, hcode, -⟩ := hs
  obtain ⟨he, hc⟩ := h.noError_of_inflight hf
  refine h.of_released hcfg (hp.trans (h.released_of_inflight hf)) hfit (flagsAgree_of_idle hn ?_) fun ht => ?_
  · simp [herr, hcode, he, hc]
  · simp [herr, he] at ht

/-- An error completion of a word that can raise the code keeps the invariant. -/
theorem Inv.of_fails {s t : State} {f : InFlight} {c : ErrCode} (h : Inv s) (hf : s.inflight = some f)
    (hs : Fails c s t) (hc : c ≠ .noError) (hcan : canRaise (decode f.word) c = true) : Inv t := by
  obtain ⟨⟨hcfg, -, -, -, -, hp, -⟩, hn, -, herr, hcode, hword, hregs, -⟩ := hs
  obtain ⟨-, hfit, -⟩ := id h
  refine h.of_released hcfg (hp.trans (h.released_of_inflight hf)) ?_ (flagsAgree_of_idle hn ?_) fun _ => ?_
  · simpa only [RegsFit, State.reg, State.marks, hregs, hcfg] using hfit
  · simp [herr, hcode, hc]
  · rwa [hword, State.inflightWord_of_inflight hf, hcode]

/-- A decoded command keeps the invariant, however it ends. -/
theorem Inv.of_ending {s t : State} {f : InFlight} {i : Instr} (h : Inv s) (hf : s.inflight = some f)
    (hd : decode f.word = .instr i) (he : Ending i s t) : Inv t := by
  obtain ⟨hl, hfit, -⟩ := id h
  cases he with
  | wrote rd v nv _ _ _ hv =>
    exact h.of_succeeds hf (s.writeReg_setNoinv_complete_succeeds rd v nv) (State.writeReg_fits hfit rd (hv hl hfit))
  | kept nv => exact h.of_succeeds hf (s.setNoinv_complete_succeeds nv) hfit
  | verdict p used =>
    obtain ⟨hs, -⟩ := s.completeTest_spec p used
    exact h.of_succeeds hf hs hfit
  | failed c p nv hfe =>
    have hc := errorCause_of_firstError hfe
    exact h.of_fails hf (s.setPrime_setNoinv_raiseError_fails p nv c) hc.ne_noError (canRaise_of_errorCause hd hc)
  | waiting => exact h

theorem Inv.engineStep {s t : State} (h : Inv s) (hx : engineStep s = .next t) : Inv t := by
  rcases engineStep_cases hx with ⟨-, rfl⟩ | ⟨f, i, hf, hd, hx⟩ | ⟨f, r, hf, hd, rfl⟩
  · exact h
  · exact h.of_ending hf hd (ending_of_exec hx)
  · exact h.of_fails hf (s.raiseError_fails _) nofun (by rw [hd]; rfl)

/-! ### Host accesses -/

/-- No host access changes the reset input. -/
theorem State.hostRead_porAsserted (s : State) (off : Nat) : (s.hostRead off).1.porAsserted = s.porAsserted := by
  rcases s.hostRead_cases off with ⟨-, -, e⟩ | ⟨-, -, e⟩ | ⟨-, e⟩ <;> rw [e]

theorem State.hostWrite_porAsserted (s : State) (off : Nat) (v : Word) :
    (s.hostWrite off v).porAsserted = s.porAsserted := by
  rcases s.hostWrite_cases off v with ⟨-, -, e⟩ | ⟨-, -, i, j, -, -, hj, e⟩ | ⟨-, -, e⟩ | ⟨-, -, e⟩ | ⟨-, e⟩ | ⟨-, -, e⟩ |
    ⟨-, -, e⟩ | e <;> rw [e] <;> rfl

theorem Inv.hostRead {s : State} (h : Inv s) (hp : s.porAsserted = false) (off : Nat) : Inv (s.hostRead off).1 := by
  obtain ⟨-, hfit, hflags, -, hrec⟩ := id h
  rcases s.hostRead_cases off with ⟨-, -, e⟩ | ⟨-, -, e⟩ | ⟨-, e⟩ <;> rw [e]
  · exact h.of_released rfl hp hfit hflags hrec
  · exact h
  · exact h

/-- Clearing ERR clears ERRCODE, so the two still agree (R31). -/
theorem State.writeStatus_inv {s : State} (h : Inv s) (hp : s.porAsserted = false) (v : Word) : Inv (s.writeStatus v) := by
  obtain ⟨-, hfit, ⟨herr, hbusy⟩, -, hrec⟩ := id h
  cases hv : v.getLsbD 2 with
  | true =>
    refine h.of_released rfl hp hfit ⟨?_, fun hb => ?_⟩ ?_
    · simp [hv, -BitVec.getLsbD_eq_getElem]
    · simp [hbusy hb]
    · simp [ErrorRecorded, hv, -BitVec.getLsbD_eq_getElem]
  | false =>
    refine h.of_released rfl hp hfit ⟨?_, fun hb => ?_⟩ ?_
    · simpa [hv, -BitVec.getLsbD_eq_getElem] using herr
    · simp [hbusy hb]
    · simpa [ErrorRecorded, hv, -BitVec.getLsbD_eq_getElem] using hrec

theorem Inv.hostWrite {s : State} (h : Inv s) (hp : s.porAsserted = false) (off : Nat) (v : Word) :
    Inv (s.hostWrite off v) := by
  obtain ⟨-, hfit, hflags, -, hrec⟩ := id h
  rcases s.hostWrite_cases off v with ⟨-, -, e⟩ | ⟨-, -, i, j, -, -, hj, e⟩ | ⟨-, -, e⟩ | ⟨-, -, e⟩ | ⟨-, e⟩ | ⟨-, -, e⟩ |
    ⟨-, -, e⟩ | e <;> rw [e]
  · exact h.of_released rfl hp hfit hflags hrec
  · exact h.of_released rfl hp (State.writeLimb_fits hfit i v hj) hflags hrec
  · exact h.of_released rfl hp hfit (flagsAgree_of_idle rfl (by simp)) nofun
  · exact h.of_released rfl hp hfit hflags hrec
  · exact s.writeStatus_inv h hp v
  · exact h.of_released rfl hp hfit hflags hrec
  · exact h.of_released rfl hp hfit ⟨by simp, fun _ => ⟨rfl, rfl⟩⟩ nofun
  · exact h

/-! ### The statement on every step -/

/-- Settles O57: a step is the engine's turn, a host access, a bus error or a reset, and each keeps the invariant. -/
theorem stepKeepsInv : Obligations.StepKeepsInv := by
  intro s t h hx
  rcases step_cases hx with ⟨u, hu, hx⟩ | ⟨off, rest, ⟨-, hp, -⟩, rfl⟩ | ⟨off, v, rest, ⟨-, hp, -⟩, rfl⟩ |
    ⟨rest, e, hp, -, rfl⟩ | ⟨b, rest, -, rfl⟩
  · exact (h.dequeue u.events).engineStep (hu.eq_dequeue ▸ hx)
  · exact ((h.dequeue rest).hostRead hp off).answer (((s.dequeue rest).hostRead_porAsserted off).trans hp) _
  · exact ((h.dequeue rest).hostWrite hp off v).answer (((s.dequeue rest).hostWrite_porAsserted off v).trans hp) _
  · exact (h.dequeue rest).answer hp e
  · obtain ⟨hl, -⟩ := h
    exact (s.dequeue rest).powerOnReset_inv hl b

end Sys2Proof.Machine

/-! SUPPORT. What a command and a step may change (spec 10_state.md): the engine's turn runs the decoded command, every command
ends by R309's order and inside its frame, and what a step can do to a register, to PRIME and NOINV, and to INFLIGHT. -/

namespace Sys2Proof.Machine

/-! ### The engine's turn (R47, R48) -/

/-- With no event pending the step is the engine's turn (log 7). -/
theorem step_quiet {s : State} (he : s.events = []) : step s = engineStep s := by
  rw [step, nextStep, he]

/-- The engine's turn runs the decoded command. -/
theorem engineStep_instr {s : State} {f : InFlight} {i : Instr} (hf : s.inflight = some f)
    (hd : decode f.word = .instr i) : engineStep s = exec i s := by
  simp only [engineStep, hf, hd]

theorem decode_of_decodeTableWord {nbits w : Nat} {i : Instr} (h : decodeTableWord nbits w = some i) :
    decode (tableWord nbits w) = .instr i := by
  unfold decodeTableWord at h
  split at h
  next j hd => rw [hd, Option.some.inj h]
  next => exact nomatch h

/-- Settles O6: the event chooses the engine's turn, and the word in flight chooses the command. -/
theorem stepRunsDecodedCommand : Obligations.StepRunsDecodedCommand := by
  refine ⟨fun s => ⟨step_quiet, fun rest he => step_event he⟩, fun s f i => engineStep_instr, fun s nbits w i h => ?_⟩
  have he : (s.withFetchWord nbits w).events = .engine :: s.events := rfl
  rw [step_event he]
  exact engineStep_instr (s := { s with inflight := some ⟨tableWord nbits w, s.detb⟩ }) rfl (decode_of_decodeTableWord h)

/-- The command whose turn it is. -/
theorem EngineTurn.nextRuns {s u : State} (h : EngineTurn s u) {f : InFlight} {i : Instr} (hf : u.inflight = some f)
    (hd : decode f.word = .instr i) : NextRuns s i := by
  rcases h with ⟨he, rfl⟩ | ⟨rest, he, rfl⟩
  · exact ⟨Or.inl he, f, hf, hd⟩
  · exact ⟨Or.inr ⟨rest, he⟩, f, hf, hd⟩

/-! ### How commands end (R309) and what they change (R22) -/

/-- Settles O27: each ending carries the first error the command meets, and which of the five it is says how it completes. -/
theorem errorPriority : Obligations.ErrorPriority := by
  intro i s
  obtain ⟨t, hx, he⟩ := exec_ending i s
  refine ⟨fun c hc => ⟨t, hx, ?_⟩, fun hnone => ⟨t, hx, ?_⟩⟩
  · cases he with
    | failed c' p nv hf =>
      obtain rfl := Option.some.inj (hf.symm.trans hc)
      exact s.setPrime_setNoinv_raiseError_fails p nv c'
    | wrote _ _ _ _ hf | kept _ hf | verdict _ _ hf | waiting hf => exact nomatch hf.symm.trans hc
  · cases he with
    | wrote rd v nv => exact Or.inl (s.writeReg_setNoinv_complete_succeeds rd v nv)
    | kept nv => exact Or.inl (s.setNoinv_complete_succeeds nv)
    | verdict p used =>
      obtain ⟨hs, -⟩ := s.completeTest_spec p used
      exact Or.inl hs
    | failed c p nv hf => exact nomatch hnone.symm.trans hf
    | waiting _ hi => exact Or.inr ⟨rfl, hi⟩

/-- A command that changes a register marks every limb of it written (R23). -/
theorem Ending.marks {i : Instr} {s t : State} (h : Ending i s t) (r : Reg) :
    t.regs.get r = s.regs.get r ∨ t.marks r = List.replicate s.cfg.nlimb true := by
  cases h with
  | wrote rd v nv =>
    by_cases hr : r = rd
    · subst hr
      exact Or.inr (s.writeReg_marks_same r v)
    · exact Or.inl (s.writeReg_get_ne v hr)
  | _ => exact Or.inl rfl

/-- PRIME changes only by the completion of an MRTEST (R37). -/
theorem Ending.prime {i : Instr} {s t : State} (h : Ending i s t) :
    t.prime = s.prime ∨ t.inflight = none ∧ ∃ ra rb k, i = .mrtest ra rb k := by
  cases h with
  | verdict _ _ _ hi => exact Or.inr ⟨rfl, hi⟩
  | failed c p nv _ hp =>
    obtain ⟨-, hp⟩ | ⟨-, -, hi⟩ := hp
    · exact Or.inl hp
    · exact Or.inr ⟨rfl, hi⟩
  | wrote | kept | waiting => exact Or.inl rfl

/-- NOINV changes only by the completion of a MODINV (R38). -/
theorem Ending.noinv {i : Instr} {s t : State} (h : Ending i s t) :
    t.noinv = s.noinv ∨ t.inflight = none ∧ ∃ rd ra rm, i = .modinv rd ra rm := by
  cases h with
  | wrote rd _ nv _ _ hn =>
    obtain hn | ⟨-, ra, rm, hi⟩ := hn
    · exact Or.inl hn
    · exact Or.inr ⟨rfl, rd, ra, rm, hi⟩
  | kept nv _ hn =>
    obtain ⟨-, hn⟩ | ⟨-, hi⟩ := hn
    · exact Or.inl hn
    · exact Or.inr ⟨rfl, hi⟩
  | failed c p nv _ _ hn =>
    obtain ⟨-, hn⟩ | ⟨hi, -⟩ := hn
    · exact Or.inl hn
    · exact Or.inr ⟨rfl, hi⟩
  | verdict | waiting => exact Or.inl rfl

/-- Only an MRTEST draws entropy answers (R124). -/
theorem Ending.entropy {i : Instr} {s t : State} (h : Ending i s t) :
    t.entropy = s.entropy ∨ ∃ ra rb k, i = .mrtest ra rb k := by
  cases h with
  | verdict _ _ _ hi => exact Or.inr hi
  | wrote | kept | failed | waiting => exact Or.inl rfl

/-- Settles O30: whichever of the five endings it is, it keeps to the frame. -/
theorem commandFrame : Obligations.CommandFrame := by
  intro i s t hx
  have h := ending_of_exec hx
  refine ⟨h.sameHostSide, fun r hr => ?_, fun hp => ?_, fun hn => ?_, fun he => h.entropy.resolve_left he⟩
  · obtain ⟨hdest, -⟩ := (h.regs r).resolve_left hr
    exact ⟨hdest, (h.marks r).resolve_left hr⟩
  · obtain ⟨-, hi⟩ := h.prime.resolve_left hp
    exact hi
  · obtain ⟨-, hi⟩ := h.noinv.resolve_left hn
    exact hi

/-! ### What a step changes -/

/-- What the engine's turn can be: nothing, the ending of the command whose turn it is, or ILLEGAL_CMD. -/
theorem EngineTurn.cases {s u t : State} (hu : EngineTurn s u) (h : engineStep u = .next t) :
    t = u ∨ (∃ i, NextRuns s i ∧ Ending i u t) ∨ t = u.raiseError .illegalCmd := by
  rcases engineStep_cases h with ⟨-, ht⟩ | ⟨f, i, hf, hd, hx⟩ | ⟨f, r, -, -, ht⟩
  · exact Or.inl ht
  · exact Or.inr (Or.inl ⟨i, hu.nextRuns hf hd, ending_of_exec hx⟩)
  · exact Or.inr (Or.inr ht)

/-- The engine's turn begins with the state's own registers, INFLIGHT and flags. -/
theorem EngineTurn.same {s u : State} (h : EngineTurn s u) :
    u.regs = s.regs ∧ u.inflight = s.inflight ∧ u.err = s.err ∧ u.prime = s.prime ∧ u.noinv = s.noinv := by
  rcases h with ⟨-, rfl⟩ | ⟨rest, -, rfl⟩ <;> exact ⟨rfl, rfl, rfl, rfl, rfl⟩

/-- The engine's turn changes PRIME and NOINV only by the completion of their commands (R37, R38). -/
theorem EngineTurn.verdicts {s u t : State} (hu : EngineTurn s u) (h : engineStep u = .next t) :
    (t.prime = u.prime ∨ t.inflight = none ∧ ∃ ra rb k, NextRuns s (.mrtest ra rb k)) ∧
      (t.noinv = u.noinv ∨ t.inflight = none ∧ ∃ rd ra rm, NextRuns s (.modinv rd ra rm)) := by
  rcases hu.cases h with rfl | ⟨i, hruns, he⟩ | rfl
  · exact ⟨Or.inl rfl, Or.inl rfl⟩
  · refine ⟨he.prime.imp id ?_, he.noinv.imp id ?_⟩
    · rintro ⟨ht, ra, rb, k, rfl⟩
      exact ⟨ht, ra, rb, k, hruns⟩
    · rintro ⟨ht, rd, ra, rm, rfl⟩
      exact ⟨ht, rd, ra, rm, hruns⟩
  · exact ⟨Or.inl rfl, Or.inl rfl⟩

/-- Of the host's accesses only the soft reset changes PRIME, NOINV, or an INFLIGHT that holds a command (R37, R38, R73). -/
theorem State.hostWrite_verdicts (s : State) (off : Nat) (v : Word) :
    (off = 0x008 ∧ v.getLsbD 31 = true ∧ s.hostWrite off v = s.softReset) ∨
      ((s.hostWrite off v).prime = s.prime ∧ (s.hostWrite off v).noinv = s.noinv ∧
        (s.busy = true → (s.hostWrite off v).inflight = s.inflight)) := by
  rcases s.hostWrite_cases off v with ⟨-, -, e⟩ | ⟨-, -, i, j, -, -, -, e⟩ | ⟨rfl, hv, e⟩ | ⟨-, -, e⟩ | ⟨-, e⟩ |
    ⟨-, -, e⟩ | ⟨-, hb, e⟩ | e <;> rw [e]
  · exact Or.inr ⟨rfl, rfl, fun _ => rfl⟩
  · exact Or.inr ⟨rfl, rfl, fun _ => rfl⟩
  · exact Or.inl ⟨rfl, hv, rfl⟩
  · exact Or.inr ⟨rfl, rfl, fun _ => rfl⟩
  · exact Or.inr ⟨rfl, rfl, fun _ => rfl⟩
  · exact Or.inr ⟨rfl, rfl, fun _ => rfl⟩
  · exact Or.inr ⟨rfl, rfl, fun hbusy => by simp [hb] at hbusy⟩
  · exact Or.inr ⟨rfl, rfl, fun _ => rfl⟩

/-- A host read changes BUSYACC at most (R66). -/
theorem State.hostRead_fst (s : State) (off : Nat) :
    (s.hostRead off).1 = s ∨ (s.hostRead off).1 = { s with busyacc := true } := by
  rcases s.hostRead_cases off with ⟨-, -, e⟩ | ⟨-, -, e⟩ | ⟨-, e⟩ <;> simp [e]

/-- Settles O54: the engine's turn changes the flags only by a completion of their commands, a host write only by the soft
reset, and a level change of the reset input is a reset. -/
theorem verdictFlagSources : Obligations.VerdictFlagSources := by
  intro s t h
  rcases step_cases h with ⟨u, hu, hx⟩ | ⟨off, rest, -, rfl⟩ | ⟨off, v, rest, hw, rfl⟩ | ⟨rest, e, -, -, rfl⟩ |
    ⟨b, rest, he, rfl⟩
  · obtain ⟨hp, hn⟩ := hu.verdicts hx
    obtain ⟨-, -, -, hprime, hnoinv⟩ := hu.same
    rw [hprime] at hp
    rw [hnoinv] at hn
    exact ⟨fun hne => Or.inr (hp.resolve_left hne), fun hne => Or.inr (hn.resolve_left hne)⟩
  · rcases (s.dequeue rest).hostRead_fst off with e | e <;> rw [e] <;>
      exact ⟨fun hne => absurd rfl hne, fun hne => absurd rfl hne⟩
  · rcases (s.dequeue rest).hostWrite_verdicts off v with ⟨rfl, hv, e⟩ | ⟨hp, hn, -⟩
    · have hr : NextResets s := Or.inl ⟨v, rest, hw, hv⟩
      rw [e]
      exact ⟨fun _ => Or.inl ⟨hr, rfl⟩, fun _ => Or.inl ⟨hr, rfl⟩⟩
    · exact ⟨fun hne => absurd hp hne, fun hne => absurd hn hne⟩
  · exact ⟨fun hne => absurd rfl hne, fun hne => absurd rfl hne⟩
  · have hr : NextResets s := Or.inr ⟨b, rest, he⟩
    exact ⟨fun _ => Or.inl ⟨hr, rfl⟩, fun _ => Or.inl ⟨hr, rfl⟩⟩

/-- The command in flight ends or stays in the engine's turn. -/
theorem Ending.inflight {i : Instr} {s t : State} (h : Ending i s t) : t.inflight = s.inflight ∨ t.inflight = none := by
  cases h with
  | waiting => exact Or.inl rfl
  | wrote | kept | verdict | failed => exact Or.inr rfl

/-- Settles O56: with a command in flight no host write puts another in its place, and the engine's turn and the resets only
end it. -/
theorem acceptedCommandIsFixed : Obligations.AcceptedCommandIsFixed := by
  intro s t f h hf
  have hb : s.busy = true := by rw [State.busy, hf]; rfl
  constructor
  · intro off v rest hw hoff
    obtain rfl := Host.Outcome.next.inj ((step_write hw).symm.trans h)
    rcases (s.dequeue rest).hostWrite_verdicts off v with ⟨rfl, -, -⟩ | ⟨-, -, hi⟩
    · omega
    · exact (hi hb).trans hf
  · rcases step_cases h with ⟨u, hu, hx⟩ | ⟨off, rest, -, rfl⟩ | ⟨off, v, rest, -, rfl⟩ | ⟨rest, e, -, -, rfl⟩ |
      ⟨b, rest, -, rfl⟩
    · obtain ⟨-, hinfl, -⟩ := hu.same
      rw [← hf, ← hinfl]
      rcases hu.cases hx with rfl | ⟨i, -, he⟩ | rfl
      · exact Or.inl rfl
      · exact he.inflight
      · exact Or.inr rfl
    · rcases (s.dequeue rest).hostRead_fst off with e | e <;> rw [e] <;> exact Or.inl hf
    · rcases (s.dequeue rest).hostWrite_verdicts off v with ⟨-, -, e⟩ | ⟨-, -, hi⟩
      · rw [e]
        exact Or.inr rfl
      · exact Or.inl ((hi hb).trans hf)
    · exact Or.inl hf
    · exact Or.inr rfl

/-! ### Operand registers over every step (R22) -/

/-- An offset of the operand window is that of the word it addresses (R62). -/
theorem windowOffset_eq {off : Nat} (hlo : 0x1000 ≤ off) (hhi : off < 0x2000) (ha : off % 4 = 0) :
    0x1000 + 0x200 * (windowReg off).val + 4 * windowLimb off = off := by
  simp only [windowReg, Fin.ofNat, windowLimb]
  omega

theorem windowLimb_le (off : Nat) : windowLimb off ≤ 127 := by
  unfold windowLimb
  omega

/-- A host write changes a register only by a limb write of it while BUSY = 0 (R62, R68). -/
theorem State.hostWrite_regs (s : State) (off : Nat) (v : Word) (r : Reg) :
    (s.hostWrite off v).regs.get r = s.regs.get r ∨
      0x1000 ≤ off ∧ s.busy = false ∧ r = windowReg off ∧ windowLimb off < s.cfg.nlimb := by
  rcases s.hostWrite_cases off v with ⟨-, -, e⟩ | ⟨ho, hb, i, j, rfl, rfl, hj, e⟩ | ⟨-, -, e⟩ | ⟨-, -, e⟩ | ⟨-, e⟩ |
    ⟨-, -, e⟩ | ⟨-, -, e⟩ | e <;> rw [e]
  · exact Or.inl rfl
  · by_cases hr : r = windowReg off
    · exact Or.inr ⟨ho, hb, hr, hj⟩
    · exact Or.inl (s.writeLimb_get_ne _ v hr)
  all_goals exact Or.inl rfl

/-- Settles O55: the engine's turn, a host write and a power-on reset are the steps that can change a register, each in the way
the statement names. -/
theorem registerSources : Obligations.RegisterSources := by
  intro s t r h hne
  rcases step_cases h with ⟨u, hu, hx⟩ | ⟨off, rest, -, rfl⟩ | ⟨off, v, rest, hw, rfl⟩ | ⟨rest, e, -, -, rfl⟩ |
    ⟨b, rest, he, rfl⟩
  · obtain ⟨hregs, -, herr', -⟩ := hu.same
    rw [← hregs] at hne
    rcases hu.cases hx with rfl | ⟨i, hruns, he⟩ | rfl
    · exact absurd rfl hne
    · obtain ⟨hd, hn, herr⟩ := (he.regs r).resolve_left hne
      exact Or.inl ⟨i, hruns, hd, hn, herr.trans herr'⟩
    · exact absurd rfl hne
  · rcases (s.dequeue rest).hostRead_fst off with e | e <;> rw [e] at hne <;> exact absurd rfl hne
  · obtain ⟨ho, hb, rfl, hj⟩ := ((s.dequeue rest).hostWrite_regs off v r).resolve_left hne
    obtain ⟨-, -, hhi, ha⟩ := id hw
    exact Or.inr (Or.inl ⟨hb, windowLimb off, v, rest, hj, (windowOffset_eq ho hhi ha).symm ▸ hw⟩)
  · exact absurd rfl hne
  · exact Or.inr (Or.inr ⟨b, rest, he⟩)

end Sys2Proof.Machine

/-! SUPPORT. Reads and writes of registers through the bus (spec 10_state.md, 20_memory.md): what the constant and status registers
read as numbers, the two stops of the bus port, limbs and bytes of a register, and the reads of unwritten limbs. -/

namespace Sys2Proof.Machine

/-! ### Control register words as numbers (R26, R27, R30) -/

/-- Appending is addition of the shifted high part. -/
theorem toNat_append_eq_add {m n : Nat} (x : BitVec m) (y : BitVec n) : (x ++ y).toNat = x.toNat * 2 ^ n + y.toNat := by
  rw [BitVec.toNat_append, ← Nat.shiftLeft_add_eq_or_of_lt y.isLt, Nat.shiftLeft_eq]

@[simp] theorem toNat_bit (b : Bool) : (bit b).toNat = b.toNat := BitVec.toNat_ofBool b

theorem cfgWord_toNat {c : Config} (hl : c.Legal) : (cfgWord c).toNat = 8 * 2 ^ 16 + c.nbits / 32 := by
  obtain ⟨-, hhi, -⟩ := hl
  have hlt : c.nlimb % 2 ^ 16 = c.nlimb := Nat.mod_eq_of_lt (by omega)
  rw [cfgWord, toNat_append_eq_add, toNat_append_eq_add, BitVec.toNat_ofNat, hlt, Config.nbits,
    Nat.mul_div_cancel_left _ (by norm_num)]
  simp

/-- The STATUS word as a sum of its fields (R30). -/
theorem State.statusWord_toNat (s : State) :
    s.statusWord.toNat = s.busy.toNat + 2 * s.done.toNat + 4 * s.err.toNat + 8 * s.cmdovr.toNat + 16 * s.busyacc.toNat +
      2 ^ 8 * s.prime.toNat + 2 ^ 9 * s.noinv.toNat + 2 ^ 16 * s.errcode.bits.toNat := by
  simp only [State.statusWord, toNat_append_eq_add, toNat_bit, BitVec.ofNat_eq_ofNat, BitVec.toNat_zero]
  omega

/-- Settles O38: each read is that of a control register, whose word is written out as a number. -/
theorem controlRegisterReads : Obligations.ControlRegisterReads := by
  intro s rest
  refine ⟨fun h => step_controlRead h (by norm_num), fun h hl => ⟨_, step_controlRead h (by norm_num), cfgWord_toNat hl⟩,
    fun h => ⟨_, _, step_controlRead h (by norm_num), s.statusWord_toNat, ?_⟩, fun h => step_controlRead h (by norm_num)⟩
  refine ⟨?_, ?_, ?_, ?_, ?_⟩ <;> exact fun hc => by rw [hc]; rfl

/-! ### The stops of the bus port (logs 9, 10) -/

section
variable {addr bits : Nat} {s : State} {e : BusResponse} {take : Nat → State × BusResponse}

theorem busAccess_outside (h : addr < s.cfg.base ∨ s.cfg.base + 0x2000 ≤ addr) :
    busAccess addr bits s e take = .fault .outsideWindow := if_pos h

theorem busAccess_duringReset (hlo : s.cfg.base ≤ addr) (hhi : addr < s.cfg.base + 0x2000) (hp : s.porAsserted = true) :
    busAccess addr bits s e take = .refused .busDuringReset := by
  rw [busAccess, if_neg (by unfold windowBytes; omega), if_pos hp]

end

/-- A step whose event is a bus access is that access. -/
theorem step_busAccess {s : State} {addr bits : Nat} {rest : List Event}
    (he : s.events = .read addr bits :: rest ∨ ∃ v, s.events = .write addr bits v :: rest) :
    ∃ e take, step s = busAccess addr bits (s.dequeue rest) e take := by
  rcases he with he | ⟨v, he⟩
  · rw [step_event he, deliver, busRead]
    exact ⟨_, _, rfl⟩
  · rw [step_event he, deliver, busWrite]
    exact ⟨_, _, rfl⟩

/-- Settles O43: the bus port looks at the address first and at the reset input second. -/
theorem busStops : Obligations.BusStops := by
  intro s addr bits rest he
  obtain ⟨e, take, hx⟩ := step_busAccess he
  rw [hx]
  exact ⟨busAccess_outside (s := s.dequeue rest), busAccess_duringReset (s := s.dequeue rest)⟩

/-! ### A limb written and read back (R69) -/

/-- A limb write leaves the read that follows it next in line. -/
theorem NextWrites.nextReads_writeLimb {s : State} {off : Nat} {v : Word} {rest : List Event}
    (h : NextWrites s off v (.read (s.cfg.base + off) 32 :: rest)) (i : Reg) (j : Nat) :
    NextReads (((s.dequeue (.read (s.cfg.base + off) 32 :: rest)).writeLimb i j v).answer .writeDone) off rest := by
  obtain ⟨-, hp, ho, ha⟩ := h
  exact ⟨rfl, hp, ho, ha⟩

/-- A limb just written is what its window word reads. -/
theorem State.windowRead_writeLimb_same (s : State) (i : Reg) {j : Nat} (v : Word) (hj : j ≤ 127) (hn : j < s.cfg.nlimb) :
    (s.writeLimb i j v).windowRead (0x1000 + 0x200 * i.val + 4 * j) = v := by
  rw [State.windowRead_lt (s.writeLimb i j v) i hj hn, State.writeLimb_reg_same, limbOf_withLimb_same]

/-- Settles O44: the write is a limb write, and the read is of that limb of the register as written. -/
theorem readAfterWrite : Obligations.ReadAfterWrite := by
  intro s i j v rest hb hn hj hw
  refine ⟨_, _, step_windowWrite_lt hw hb hj hn, step_windowRead (hw.nextReads_writeLimb i j) (by omega) hb, ?_⟩
  exact congrArg BusResponse.readData (State.windowRead_writeLimb_same (s.dequeue _) i v hj hn)

/-! ### A register written limb by limb (R21) -/

/-- Values of n limbs with the same limbs are the same. -/
theorem eq_of_limbOf_eq {x y n : Nat} (hx : x < 2 ^ (32 * n)) (hy : y < 2 ^ (32 * n))
    (h : ∀ j, j < n → limbOf x j = limbOf y j) : x = y := by
  apply Nat.eq_of_testBit_eq
  intro k
  by_cases hk : k < 32 * n
  · have hbit := congrArg (fun w : Word => w.getLsbD (k % 32)) (h (k / 32) (by omega))
    simpa only [limbOf_getLsbD _ _ _ (Nat.mod_lt k (by norm_num : 0 < 32)), Nat.div_add_mod] using hbit
  · have hle : 2 ^ (32 * n) ≤ 2 ^ k := Nat.pow_le_pow_right (by norm_num) (by omega)
    rw [Nat.testBit_lt_two_pow (hx.trans_le hle), Nat.testBit_lt_two_pow (hy.trans_le hle)]

/-- A register is written when each of its limbs is (R23). -/
theorem State.regWritten_iff {s : State} (h : RegsFit s) (r : Reg) :
    s.regWritten r = true ↔ ∀ j, j < s.cfg.nlimb → s.limbWritten r j = true := by
  rw [← (h r).2, State.regWritten, List.all_eq_true, List.forall_mem_iff_forall_getElem]
  refine forall_congr' fun j => forall_congr' fun hj => ?_
  rw [State.limbWritten, List.getD_eq_getElem _ _ hj, id]

theorem State.limbWritten_writeLimb_same (s : State) (i : Reg) {j : Nat} (v : Word) (hj : j < (s.marks i).length) :
    (s.writeLimb i j v).limbWritten i j = true := by
  rw [State.limbWritten, State.writeLimb_marks_same, List.getD_eq_getElem _ _ (by rwa [List.length_set]),
    List.getElem_set_self]

theorem State.limbWritten_writeLimb_ne (s : State) (i : Reg) {j k : Nat} (v : Word) (h : k ≠ j) :
    (s.writeLimb i j v).limbWritten i k = s.limbWritten i k := by
  rw [State.limbWritten, State.writeLimb_marks_same, List.getD_eq_getElem?_getD, List.getElem?_set_ne h.symm,
    ← List.getD_eq_getElem?_getD, State.limbWritten]

theorem State.loadLimbs_succ (s : State) (i : Reg) (v n : Nat) :
    s.loadLimbs i v (n + 1) = (s.loadLimbs i v n).writeLimb i n (limbOf v n) := by
  simp [State.loadLimbs, List.range_succ]

@[simp] theorem State.loadLimbs_cfg (s : State) (i : Reg) (v n : Nat) : (s.loadLimbs i v n).cfg = s.cfg := by
  induction n with
  | zero => rfl
  | succ n ih => rw [State.loadLimbs_succ, State.writeLimb_cfg, ih]

theorem State.loadLimbs_get_ne (s : State) {i r : Reg} (v n : Nat) (h : r ≠ i) :
    (s.loadLimbs i v n).regs.get r = s.regs.get r := by
  induction n with
  | zero => rfl
  | succ n ih => rw [State.loadLimbs_succ, State.writeLimb_get_ne _ _ _ h, ih]

section
variable {s : State} (i : Reg) (v : Nat) {n : Nat}

theorem State.loadLimbs_fits (h : RegsFit s) (hn : n ≤ s.cfg.nlimb) : RegsFit (s.loadLimbs i v n) := by
  induction n with
  | zero => exact h
  | succ n ih =>
    rw [State.loadLimbs_succ]
    exact State.writeLimb_fits (ih (by omega)) i _ (by rw [State.loadLimbs_cfg]; omega)

/-- After n limb writes, limbs 0 to n - 1 are those of the value, and marked written. -/
theorem State.loadLimbs_limbs (h : RegsFit s) (hn : n ≤ s.cfg.nlimb) (j : Nat) (hj : j < n) :
    limbOf ((s.loadLimbs i v n).reg i) j = limbOf v j ∧ (s.loadLimbs i v n).limbWritten i j = true := by
  induction n with
  | zero => omega
  | succ n ih =>
    rw [State.loadLimbs_succ, State.writeLimb_reg_same]
    by_cases hjn : j = n
    · subst hjn
      obtain ⟨-, hlen⟩ := State.loadLimbs_fits i v h (Nat.le_of_succ_le hn) i
      rw [State.loadLimbs_cfg] at hlen
      exact ⟨limbOf_withLimb_same _ _ _, State.limbWritten_writeLimb_same _ i _ (by omega)⟩
    · rw [limbOf_withLimb_ne _ _ hjn, State.limbWritten_writeLimb_ne _ i _ hjn]
      exact ih (by omega) (by omega)

end

/-- Settles O45: after NLIMB limb writes every limb is that of the value and marked written, and no write touched another
register. -/
theorem loadSequenceWritesRegister : Obligations.LoadSequenceWritesRegister := by
  intro s i v h hv
  have hfit := State.loadLimbs_fits i v h (le_refl s.cfg.nlimb)
  have hlimbs := State.loadLimbs_limbs i v h (le_refl s.cfg.nlimb)
  have hlt := (hfit i).1
  rw [State.loadLimbs_cfg] at hlt
  refine ⟨eq_of_limbOf_eq hlt hv fun j hj => (hlimbs j hj).1, ?_, fun r hr => s.loadLimbs_get_ne v _ hr⟩
  rw [State.regWritten_iff hfit, State.loadLimbs_cfg]
  exact fun j hj => (hlimbs j hj).2

/-! ### Bytes of a register (R63) -/

/-- Byte b of limb j is byte 4j + b of the value. -/
theorem byteLane_limbOf (x j : Nat) {b : Nat} (hb : b < 4) :
    (byteLane (limbOf x j) b).toNat = x / 2 ^ (8 * (4 * j + b)) % 2 ^ 8 := by
  apply Nat.eq_of_testBit_eq
  intro k
  rw [BitVec.testBit_toNat, byteLane, BitVec.getLsbD_extractLsb', Nat.testBit_mod_two_pow, Nat.testBit_div_two_pow]
  by_cases hk : k < 8
  · rw [limbOf_getLsbD _ _ _ (by omega), show 32 * j + (8 * b + k) = k + 8 * (4 * j + b) by omega]
  · simp [hk]

/-- Settles O46: byte n stands in limb n / 4, in lane n mod 4. -/
theorem windowBytesLittleEndian : Obligations.WindowBytesLittleEndian := by
  intro s i n hl hn
  obtain ⟨-, hhi, -⟩ := hl
  rw [State.windowRead_lt s i (by omega) (by omega), byteLane_limbOf _ _ (Nat.mod_lt n (by norm_num)), Nat.div_add_mod]

/-! ### Reads of unwritten limbs (R23) -/

theorem goodAccess_iff (off bits : Nat) : goodAccess off bits = true ↔ off % 4 = 0 ∧ bits = 32 := by
  rw [goodAccess, Bool.and_eq_true, beq_iff_eq, beq_iff_eq]

theorem hostReadsUnwritten_iff (s : State) (off : Nat) :
    hostReadsUnwritten s off = true ↔ 0x1000 ≤ off ∧ s.busy = false ∧ windowLimb off < s.cfg.nlimb ∧
      s.limbWritten (windowReg off) (windowLimb off) = false := by
  simp [hostReadsUnwritten, inOperandWindow, and_assoc]

/-- A good read next is a fault exactly when it reads an unwritten limb. -/
theorem unwrittenFault_of_nextReads {s : State} {off : Nat} {rest : List Event} (h : NextReads s off rest) :
    unwrittenFault s = hostReadsUnwritten s off := by
  obtain ⟨he, hp, ho, ha⟩ := h
  simp only [unwrittenFault, he, takesAccess_offset ho hp, Nat.add_sub_cancel_left, (goodAccess_iff off 32).mpr ⟨ha, rfl⟩,
    Bool.true_and]

/-- A read that meets the fault is a good one of the operand window. -/
theorem nextReads_of_unwrittenFault {s : State} {addr bits : Nat} {rest : List Event}
    (he : s.events = .read addr bits :: rest) (h : unwrittenFault s = true) :
    ∃ off, NextReads s off rest ∧ hostReadsUnwritten s off = true := by
  simp only [unwrittenFault, he, takesAccess, Bool.and_eq_true, decide_eq_true_eq, Bool.not_eq_true',
    goodAccess_iff] at h
  obtain ⟨⟨⟨⟨hlo, hhi⟩, hp⟩, ha, rfl⟩, hr⟩ := h
  unfold windowBytes at hhi
  exact ⟨addr - s.cfg.base, ⟨by rw [he, Nat.add_sub_cancel' hlo], hp, by omega, ha⟩, hr⟩

/-- With a command in flight whose turn it is, the fault is that of the command's operands. -/
theorem unwrittenFault_of_nextRuns {s : State} {i : Instr} (h : NextRuns s i) :
    unwrittenFault s = readsUnwritten s i := by
  obtain ⟨he, f, hf, hd⟩ := h
  rcases he with he | ⟨rest, he⟩ <;> simp only [unwrittenFault, he, engineReadsUnwritten, hf, hd]

/-- A command reads an unwritten limb exactly when an operand register of it has one. -/
theorem readsUnwritten_iff {s : State} (h : RegsFit s) (i : Instr) :
    readsUnwritten s i = true ↔ ∃ r ∈ operandRegs s i, ∃ j, j < s.cfg.nlimb ∧ s.limbWritten r j = false := by
  simp only [readsUnwritten, List.any_eq_true, Bool.not_eq_true', ← Bool.not_eq_true, State.regWritten_iff h, not_forall,
    exists_prop]

/-- A turn of the engine that meets the fault is a decoded command's. -/
theorem nextRuns_of_engineReadsUnwritten {s : State} (he : s.events = [] ∨ ∃ rest, s.events = .engine :: rest)
    (h : engineReadsUnwritten s = true) : ∃ i, NextRuns s i := by
  unfold engineReadsUnwritten at h
  split at h
  next => exact nomatch h
  next f hf =>
    split at h
    next i hd => exact ⟨i, he, f, hf, hd⟩
    next => exact nomatch h

/-- Settles O33: the next event chooses between the host's read and the engine's turn, and no other event can meet the
fault. -/
theorem unwrittenReadsAreFaults : Obligations.UnwrittenReadsAreFaults := by
  refine ⟨fun s i j rest hj h => ?_, fun s i hfit h => ?_, fun s h => ?_⟩
  · rw [unwrittenFault_of_nextReads h, hostReadsUnwritten_iff, windowReg_offset i j hj, windowLimb_offset i j hj]
    exact and_iff_right (by omega)
  · rw [unwrittenFault_of_nextRuns h, readsUnwritten_iff hfit]
  · cases he : s.events with
    | nil => exact Or.inl (nextRuns_of_engineReadsUnwritten (Or.inl he) (by simpa only [unwrittenFault, he] using h))
    | cons e rest =>
      cases e with
      | engine =>
        exact Or.inl (nextRuns_of_engineReadsUnwritten (Or.inr ⟨rest, he⟩) (by simpa only [unwrittenFault, he] using h))
      | read addr bits =>
        obtain ⟨off, hr, hun⟩ := nextReads_of_unwrittenFault he h
        obtain ⟨ho, -⟩ := (hostReadsUnwritten_iff s off).mp hun
        obtain ⟨-, -, hhi, ha⟩ := id hr
        exact Or.inr ⟨windowReg off, windowLimb off, rest, windowLimb_le off, (windowOffset_eq ho hhi ha).symm ▸ hr⟩
      | write | powerOn => simp [unwrittenFault, he] at h

end Sys2Proof.Machine

/-! SUPPORT. MRTEST's encoding, its entropy mode and the laws of its verdict (spec 40_primality.md): how the rounds on the source's
answers end, and why no base rejects a prime. -/

namespace Sys2Proof.Machine

/-! ### Encoding and the candidates that need no round (R120) -/

theorem encodedAs_mrtest {ra rb : Reg} {k : BitVec 8} (hk : k ≠ 0) :
    EncodedAs (.mrtest ra rb k) 0x00000020 0x00F88FFF
      (fun w => raField w = regBits ra ∧ rbField w = regBits rb ∧ immField w = k) := by
  refine encodedAs_of_row (r := ⟨.mrtest, 0x00000020, 0x00F88FFF⟩) (by decide) rfl (fun w hw => ?_) fun _ w ho => ?_
  · obtain ⟨-, hra, hrb, -⟩ := regFields_of_masked hw
    rw [rowInstr, Instr.mrtest.injEq, fieldReg_eq_iff hra, fieldReg_eq_iff hrb]
  · obtain ⟨-, -, himm⟩ := ho
    exact himm ▸ hk

/-- Settles O21: such a candidate is answered before any round, so no answer is drawn. -/
theorem mrtestTrivialCandidates : Obligations.MrtestTrivialCandidates := by
  refine fun ra rb k hk => ⟨encodedAs_mrtest hk, fun s h => ?_⟩
  obtain ⟨hs, hregs, hprime, hnoinv, hent⟩ := s.completeTest_spec (decide (s.reg ra = 2 ∨ s.reg ra = 3)) 0
  exact ⟨_, execMrtest_trivial ra rb k s hk h, hs, hregs, by rw [hprime, decide_eq_true_iff], hnoinv, hent⟩

/-! ### The rounds in entropy mode (R124, R126) -/

/-- An MRTEST on an odd candidate of at least 5, without DETB at acceptance, runs on the source's answers. -/
theorem exec_mrtest_entropy {ra rb : Reg} {k : BitVec 8} {s : State} (hk : k ≠ 0) (hd : s.inflightDetb = false)
    (h5 : 5 ≤ s.reg ra) (ho : s.reg ra % 2 = 1) :
    exec (.mrtest ra rb k) s = runEntropy (s.reg ra) k.toNat s :=
  (execMrtest_odd ra rb k s hk h5 ho).trans (if_neg (ne_true_of_eq_false hd))

/-- A round rejects exactly the bases that do not accept n. -/
theorem mrRound_split_eq_false_iff {n : Nat} (a : Nat) (hn : 3 ≤ n) (ho : n % 2 = 1) :
    mrRound n (split n).1 (split n).2 a = false ↔ ¬ BaseAccepts n a := by
  rw [← mrRound_split_iff n a hn ho, Bool.not_eq_true]

/-- How an entropy run on an odd candidate ends. -/
inductive EntropyEnding (n k : Nat) (s : State) : State → Prop
  /-- All k rounds have an answer, and every base accepts. -/
  | passed (hk : k ≤ s.entropy.length) (hall : ∀ x ∈ s.entropy.take k, BaseAccepts n (entropyBase n x)) :
      EntropyEnding n k s (s.completeTest true k)
  /-- Round m is the first whose base rejects. -/
  | rejected {m x : Nat} (hm : m < k) (hx : s.entropy[m]? = some x) (hrej : ¬ BaseAccepts n (entropyBase n x))
      (hall : ∀ y ∈ s.entropy.take m, BaseAccepts n (entropyBase n y)) :
      EntropyEnding n k s (s.completeTest false (m + 1))
  /-- The answers run out before the rounds do. -/
  | waiting (hk : s.entropy.length < k) (hall : ∀ x ∈ s.entropy, BaseAccepts n (entropyBase n x)) :
      EntropyEnding n k s s

theorem runEntropy_ending {n : Nat} (k : Nat) (s : State) (hn : 3 ≤ n) (ho : n % 2 = 1) :
    ∃ t, runEntropy n k s = .next t ∧ EntropyEnding n k s t := by
  rw [runEntropy]
  rcases runRounds_spec n (split n).1 (split n).2 k (s.entropyBases n) 0 with
    ⟨he, hk, hall⟩ | ⟨m, a, hm, ha, hrej, hall, he⟩ | ⟨he, hk, hall⟩ <;> rw [he]
  all_goals
    simp only [State.entropyBases, ← List.map_take, List.forall_mem_map, List.length_map, List.getElem?_map,
      Option.map_eq_some_iff, mrRound_split_iff n _ hn ho, mrRound_split_eq_false_iff _ hn ho, Nat.zero_add] at *
  · exact ⟨_, rfl, .passed hk hall⟩
  · obtain ⟨x, hx, rfl⟩ := ha
    exact ⟨_, rfl, .rejected hm hx hrej hall⟩
  · exact ⟨_, rfl, .waiting hk hall⟩

/-- Settles O23: of the three endings of the rounds, the answers that are there rule out the wait. -/
theorem mrtestEntropyRounds : Obligations.MrtestEntropyRounds := by
  intro ra rb k s hk hd h5 ho hans
  obtain ⟨t, hx, he⟩ := runEntropy_ending k.toNat s (by omega) ho
  refine ⟨t, (exec_mrtest_entropy hk hd h5 ho).trans hx, ?_⟩
  cases he with
  | passed hlen hall =>
    obtain ⟨hs, hregs, hprime, hnoinv, hent⟩ := s.completeTest_spec true k.toNat
    exact ⟨hs, hregs, hnoinv, Or.inl ⟨hprime, hlen, hent, hall⟩⟩
  | @rejected m x hm hans hrej hall =>
    obtain ⟨hs, hregs, hprime, hnoinv, hent⟩ := s.completeTest_spec false (m + 1)
    exact ⟨hs, hregs, hnoinv, Or.inr ⟨m, x, hm, hans, hprime, hent, hrej, hall⟩⟩
  | waiting hlen hall =>
    rcases hans with hlen' | ⟨m, x, -, hx, hrej⟩
    · omega
    · exact absurd (hall x (List.mem_of_getElem? hx)) hrej

/-- Settles O24: of the three endings of the rounds, too few answers rule out the first and accepting ones the second. -/
theorem mrtestWaitsForEntropy : Obligations.MrtestWaitsForEntropy := by
  intro ra rb k s hk hd h5 ho hlen hall
  obtain ⟨t, hx, he⟩ := runEntropy_ending k.toNat s (by omega) ho
  rw [exec_mrtest_entropy hk hd h5 ho, hx]
  cases he with
  | passed hlen' => omega
  | rejected _ hans hrej => exact absurd (hall _ (List.mem_of_getElem? hans)) hrej
  | waiting => rfl

/-- Settles O25: answer a - 2 gives base a. -/
theorem entropyBasesCoverRange : Obligations.EntropyBasesCoverRange := by
  intro n a hn
  constructor
  · rintro ⟨x, rfl⟩
    exact entropyBase_mem n x hn
  · rintro ⟨hlo, hhi⟩
    exact ⟨a - 2, by rw [entropyBase, Nat.mod_eq_of_lt (by omega)]; omega⟩

/-! ### No base rejects a prime (R128) -/

/-- Where 1 has no square roots but 1 and -1, an element whose 2^r-th power is 1 is 1, or one of its squares before is -1. -/
theorem eq_one_or_exists_pow_eq_neg_one {R : Type} [Ring R] [NoZeroDivisors R] (x : R) (r : Nat) (h : x ^ 2 ^ r = 1) :
    x = 1 ∨ ∃ j, j < r ∧ x ^ 2 ^ j = -1 := by
  induction r with
  | zero => exact Or.inl (by simpa using h)
  | succ r ih =>
    rw [pow_succ, pow_mul, sq_eq_one_iff] at h
    rcases h with h | h
    · exact (ih h).imp id fun ⟨j, hj, hx⟩ => ⟨j, by omega, hx⟩
    · exact Or.inr ⟨r, by omega, h⟩

/-- By Fermat, every base in [2, n-2] accepts a prime n. -/
theorem baseAccepts_of_prime {n a : Nat} (hp : n.Prime) (hlo : 2 ≤ a) (hhi : a ≤ n - 2) : BaseAccepts n a := by
  intro r d hn _
  have : Fact n.Prime := ⟨hp⟩
  have ha : (a : ZMod n) ≠ 0 := by
    rw [Ne, ZMod.natCast_eq_zero_iff]
    exact Nat.not_dvd_of_pos_of_lt (by omega) (by omega)
  have hfermat : ((a : ZMod n) ^ d) ^ 2 ^ r = 1 := by
    rw [← pow_mul, mul_comm, ← hn, ZMod.pow_card_sub_one_eq_one ha]
  have hneg : ((n - 1 : Nat) : ZMod n) = -1 := by
    rw [Nat.cast_sub hp.one_le, ZMod.natCast_self, Nat.cast_one, zero_sub]
  refine (eq_one_or_exists_pow_eq_neg_one _ r hfermat).imp (fun h => ?_) fun ⟨j, hj, h⟩ => ⟨j, hj, ?_⟩
  · rw [← Nat.mod_eq_of_lt hp.one_lt, ← ZMod.natCast_eq_natCast_iff']
    push_cast
    exact h
  · rw [← Nat.mod_eq_of_lt (Nat.sub_lt hp.pos one_pos), ← ZMod.natCast_eq_natCast_iff', hneg, mul_comm, pow_mul]
    push_cast
    exact h

/-! ### The laws of the verdict (R128) -/

/-- The bases of an MRTEST's rounds, in the mode captured at acceptance (R124, R125). -/
def State.roundBases (s : State) (ra rb : Reg) (k : BitVec 8) : List Nat :=
  if s.inflightDetb then s.detBases rb k.toNat else s.entropyBases (s.reg ra)

section
variable {ra rb : Reg} {k : BitVec 8} {s t : State}

/-- The base registers repeat after eight rounds (R125). -/
theorem baseReg_mod_eight (rb : Reg) (i : Nat) : baseReg rb (i % 8) = baseReg rb i := by
  apply Fin.ext
  simp only [baseReg, Fin.ofNat]
  omega

/-- The check of the first min(K, 8) base registers covers the bases of all rounds (R125). -/
theorem State.detBases_mem_range {n m : Nat} (h : s.detBasesOk n rb m = true) {a : Nat} (ha : a ∈ s.detBases rb m) :
    2 ≤ a ∧ a ≤ n - 2 := by
  revert a
  rw [State.forall_mem_detBases]
  intro i hi
  exact baseReg_mod_eight rb i ▸ (s.detBasesOk_iff n rb m).mp h (i % 8) (by omega)

/-- Without an error, every base lies in [2, n-2] (R123). -/
theorem State.roundBases_mem_range (hk : k ≠ 0) (h5 : 5 ≤ s.reg ra) (ho : s.reg ra % 2 = 1)
    (hf : firstError s (.mrtest ra rb k) = none) {a : Nat} (ha : a ∈ s.roundBases ra rb k) :
    2 ≤ a ∧ a ≤ s.reg ra - 2 := by
  cases hd : s.inflightDetb with
  | true =>
    rw [State.roundBases, hd, if_pos rfl] at ha
    rw [firstError_mrtest_odd ra rb k s hk h5 ho hd] at hf
    exact State.detBases_mem_range (by simpa using hf) ha
  | false =>
    rw [State.roundBases, hd, if_neg Bool.false_ne_true, State.entropyBases] at ha
    obtain ⟨x, -, rfl⟩ := List.mem_map.mp ha
    exact entropyBase_mem _ x h5

/-- A successful MRTEST on an odd candidate has the verdict of its rounds. -/
theorem runRounds_of_exec_mrtest (hk : k ≠ 0) (h5 : 5 ≤ s.reg ra) (ho : s.reg ra % 2 = 1) (hb : s.busy = true)
    (hx : exec (.mrtest ra rb k) s = .next t) (hs : Succeeds s t) (hf : firstError s (.mrtest ra rb k) = none) :
    ∃ used, runRounds (s.reg ra) (split (s.reg ra)).1 (split (s.reg ra)).2 k.toNat (s.roundBases ra rb k) 0 =
      .verdict t.prime used := by
  obtain ⟨-, hidle, -⟩ := hs
  cases hd : s.inflightDetb with
  | true =>
    rw [firstError_mrtest_odd ra rb k s hk h5 ho hd] at hf
    rw [exec_mrtest_deterministic hk hd h5 ho, runDeterministic, if_pos (by simpa using hf)] at hx
    rw [State.roundBases, hd, if_pos rfl]
    cases hr : runRounds (s.reg ra) (split (s.reg ra)).1 (split (s.reg ra)).2 k.toNat (s.detBases rb k.toNat) 0 with
    | verdict v used =>
      rw [hr] at hx
      exact ⟨used, Host.Outcome.next.inj hx ▸ rfl⟩
    | waiting => exact absurd hr (runRounds_detBases _ _ _ _ _ _)
  | false =>
    rw [exec_mrtest_entropy hk hd h5 ho, runEntropy] at hx
    rw [State.roundBases, hd, if_neg Bool.false_ne_true]
    cases hr : runRounds (s.reg ra) (split (s.reg ra)).1 (split (s.reg ra)).2 k.toNat (s.entropyBases (s.reg ra)) 0 with
    | verdict v used =>
      rw [hr] at hx
      exact ⟨used, Host.Outcome.next.inj hx ▸ rfl⟩
    | waiting =>
      rw [hr] at hx
      obtain rfl := Host.Outcome.next.inj hx
      simp [State.busy, hidle] at hb

/-- A verdict of 1 says that every round ran and accepted, one of 0 that some base rejects. -/
theorem verdict_cases {n m used : Nat} {as : List Nat} {v : Bool} (hn : 3 ≤ n) (ho : n % 2 = 1)
    (h : runRounds n (split n).1 (split n).2 m as 0 = .verdict v used) :
    (v = true ∧ m ≤ as.length ∧ ∀ a ∈ as.take m, BaseAccepts n a) ∨ v = false ∧ ∃ a ∈ as.take m, ¬ BaseAccepts n a := by
  rcases runRounds_spec n (split n).1 (split n).2 m as 0 with
    ⟨he, hm, hall⟩ | ⟨j, a, hj, ha, hrej, -, he⟩ | ⟨he, -⟩ <;> rw [h] at he
  · obtain ⟨rfl, -⟩ := RoundsResult.verdict.inj he
    exact Or.inl ⟨rfl, hm, fun a ha => (mrRound_split_iff n a hn ho).mp (hall a ha)⟩
  · obtain ⟨rfl, -⟩ := RoundsResult.verdict.inj he
    have hmem : a ∈ as.take m := List.mem_of_getElem? (by rwa [List.getElem?_take_of_lt hj])
    exact Or.inr ⟨rfl, a, hmem, (mrRound_split_eq_false_iff a hn ho).mp hrej⟩
  · exact nomatch he

/-- On an odd candidate of at least 5, PRIME is 1 exactly when every round ran and accepted, and a prime is never rejected. -/
theorem mrtest_verdict_odd (hk : k ≠ 0) (h5 : 5 ≤ s.reg ra) (ho : s.reg ra % 2 = 1) (hb : s.busy = true)
    (hx : exec (.mrtest ra rb k) s = .next t) (hs : Succeeds s t) (hf : firstError s (.mrtest ra rb k) = none) :
    (t.prime = true ↔ k.toNat ≤ (s.roundBases ra rb k).length ∧
      ∀ a ∈ (s.roundBases ra rb k).take k.toNat, BaseAccepts (s.reg ra) a) ∧
    (Nat.Prime (s.reg ra) → t.prime = true) := by
  obtain ⟨used, hr⟩ := runRounds_of_exec_mrtest hk h5 ho hb hx hs hf
  rcases verdict_cases (by omega) ho hr with ⟨hv, hpass⟩ | ⟨hv, a, ha, hrej⟩
  · exact ⟨iff_of_true hv hpass, fun _ => hv⟩
  · refine ⟨iff_of_false (ne_true_of_eq_false hv) fun ⟨_, hall⟩ => hrej (hall a ha), fun hp => ?_⟩
    obtain ⟨hlo, hhi⟩ := State.roundBases_mem_range hk h5 ho hf (List.mem_of_mem_take ha)
    exact absurd (baseAccepts_of_prime hp hlo hhi) hrej

/-- A prime that needs no round is 2 or 3, and PRIME is 1. -/
theorem mrtest_verdict_trivial (hk : k ≠ 0) (h : s.reg ra ≤ 3 ∨ s.reg ra % 2 = 0)
    (hx : exec (.mrtest ra rb k) s = .next t) (hp : Nat.Prime (s.reg ra)) : t.prime = true := by
  obtain rfl := Host.Outcome.next.inj ((execMrtest_trivial ra rb k s hk h).symm.trans hx)
  rw [State.completeTest_prime, decide_eq_true_iff]
  have h2 := hp.two_le
  rcases h with h | h
  · omega
  · exact Or.inl (hp.even_iff.mp (Nat.even_iff.mpr h))

end

/-- Settles O26: the verdict on an odd candidate is that of its rounds, whose bases lie in [2, n-2] and so accept a prime. -/
theorem verdictLaws : Obligations.VerdictLaws := by
  intro ra rb k s t hk hb hx hs hf
  have hprime : Nat.Prime (s.reg ra) → t.prime = true := by
    intro hp
    by_cases htriv : s.reg ra ≤ 3 ∨ s.reg ra % 2 = 0
    · exact mrtest_verdict_trivial hk htriv hx hp
    · obtain ⟨-, hacc⟩ := mrtest_verdict_odd hk (by omega) (by omega) hb hx hs hf
      exact hacc hp
  refine ⟨hprime, fun hv => Or.inr fun hp => ne_true_of_eq_false hv (hprime hp), fun h5 ho => ?_⟩
  obtain ⟨hiff, -⟩ := mrtest_verdict_odd hk h5 ho hb hx hs hf
  exact hiff

end Sys2Proof.Machine

/-! SUPPORT. The round trip of CRYPT (spec 43_modexp.md): a power of a power modulo a product of two primes. -/

namespace Sys2Proof.Machine

/-- An exponent that is 1 modulo p - 1 does nothing modulo the prime p, by Fermat; no coprimality is needed. -/
theorem pow_modEq_self_of_prime {p m : Nat} (hp : p.Prime) (hm : m ≡ 1 [MOD p - 1]) (hpos : 0 < m) (x : Nat) :
    x ^ m ≡ x [MOD p] := by
  have h := Int.ModEq.pow_eq_pow hp ((Nat.modEq_iff_dvd' hpos).mp hm.symm) hpos one_pos x
  rw [← Int.natCast_modEq_iff]
  push_cast
  rwa [pow_one] at h

/-- The same modulo a product of two different primes (R184). -/
theorem pow_modEq_self_of_primes {p q m : Nat} (hp : p.Prime) (hq : q.Prime) (hne : p ≠ q)
    (hm : m ≡ 1 [MOD (p - 1) * (q - 1)]) (hpos : 0 < m) (x : Nat) : x ^ m ≡ x [MOD p * q] :=
  (Nat.modEq_and_modEq_iff_modEq_mul ((Nat.coprime_primes hp hq).mpr hne)).mp
    ⟨pow_modEq_self_of_prime hp (hm.of_mul_right _) hpos x, pow_modEq_self_of_prime hq (hm.of_mul_left _) hpos x⟩

/-- With an odd prime the product of exponents is not 0: 0 is not 1 modulo an even number. -/
theorem exponents_pos {p q m : Nat} (hp : p % 2 = 1) (hm : m ≡ 1 [MOD (p - 1) * (q - 1)]) : 0 < m := by
  have hdvd : 2 ∣ (p - 1) * (q - 1) := Dvd.dvd.mul_right (by omega) _
  have h2 : m % 2 = 1 % 2 := hm.of_dvd hdvd
  omega

/-- Decryption undoes encryption on every value below the modulus. -/
theorem rsa_pow_pow {p q e d x : Nat} (hp : p.Prime) (hq : q.Prime) (hne : p ≠ q) (hodd : p % 2 = 1)
    (hed : e * d ≡ 1 [MOD (p - 1) * (q - 1)]) (hx : x < p * q) : (x ^ e % (p * q)) ^ d % (p * q) = x := by
  rw [← Nat.pow_mod, ← pow_mul]
  exact Nat.mod_eq_of_modEq (pow_modEq_self_of_primes hp hq hne hed (exponents_pos hodd hed) x) hx

theorem reg_of_exec_crypt {rd ra rb rm : Reg} {s t : State} (hm : s.reg rm % 2 = 1) (hx : s.reg ra < s.reg rm)
    (h : exec (.crypt rd ra rb rm) s = .next t) : t.reg rd = s.reg ra ^ s.reg rb % s.reg rm := by
  obtain rfl := Host.Outcome.next.inj ((exec_crypt_inRange hm hx).symm.trans h)
  simp

/-- Settles O16: both commands raise to a power modulo n, and the two exponents together do nothing. The second finds its
message in range because the first reduced it. -/
theorem rsaRoundTrip : Obligations.RsaRoundTrip := by
  intro p q e d x rd ra rb rm rd' ra' rb' rm' s t u hp hq hne hpo hqo hed hx hra hrb hrm h hra' hrb' hrm'
  have hodd : p * q % 2 = 1 := Nat.odd_iff.mp ((Nat.odd_iff.mpr hpo).mul (Nat.odd_iff.mpr hqo))
  have ht := reg_of_exec_crypt (by rwa [hrm]) (by rwa [hra, hrm]) h
  rw [hra, hrb, hrm] at ht
  have hlt : u.reg ra' < u.reg rm' := by
    rw [hra', hrm', ht]
    exact Nat.mod_lt _ (Nat.mul_pos hp.pos hq.pos)
  have hexec := exec_crypt_inRange (rd := rd') (rb := rb') (by rwa [hrm']) hlt
  obtain ⟨hs, ⟨hv, -⟩, -⟩ := u.writeReg_complete_spec rd' (u.reg ra' ^ u.reg rb' % u.reg rm')
  refine ⟨_, hexec, hs, hv.trans ?_⟩
  rw [hra', hrb', hrm', ht]
  exact rsa_pow_pow hp hq hne hpo hed hx

end Sys2Proof.Machine

/-! SUPPORT. What a command depends on (spec 10_state.md): its effect is fixed by its operands, INFLIGHT, the parameters and the
entropy answers, so no flag and no unwritten limb bears on it; and what a step shows of unwritten limbs. -/

namespace Sys2Proof.Machine

/-! ### The effect of a command -/

/-- What a command does to a state: the result it writes, the values it gives PRIME and NOINV, the answers it draws. -/
inductive Effect where
  /-- A successful completion (R49). -/
  | succeed (result : Option (Reg × Nat)) (prime noinv : Option Bool) (drawn : Nat)
  /-- An error completion (R50). -/
  | fail (code : ErrCode) (prime noinv : Option Bool)
  /-- The command stays in flight (R124). -/
  | wait

/-- The verdict flags after an effect that gives them these values, none where it leaves one. -/
def State.setVerdicts (s : State) (prime noinv : Option Bool) : State :=
  (s.setPrime (prime.getD s.prime)).setNoinv (noinv.getD s.noinv)

/-- The result write of an effect, if it has one. -/
def State.writeResult (s : State) : Option (Reg × Nat) → State
  | none => s
  | some (rd, v) => s.writeReg rd v

/-- The state after an effect. -/
def Effect.apply (s : State) : Effect → State
  | .succeed result prime noinv drawn =>
    State.complete (({ s.writeResult result with entropy := s.entropy.drop drawn } : State).setVerdicts prime noinv)
  | .fail code prime noinv => (s.setVerdicts prime noinv).raiseError code
  | .wait => s

/-- The effect gives PRIME a value, unless the command waits. -/
def Effect.decidesPrime : Effect → Bool
  | .succeed _ prime _ _ => prime.isSome
  | .fail _ prime _ => prime.isSome
  | .wait => true

/-- The effect gives NOINV a value. -/
def Effect.decidesNoinv : Effect → Bool
  | .succeed _ _ noinv _ => noinv.isSome
  | .fail _ _ noinv => noinv.isSome
  | .wait => false

/-- The inputs of command i that t shares with s (R22). -/
structure SameInputs (i : Instr) (s t : State) : Prop where
  cfg : t.cfg = s.cfg
  inflight : t.inflight = s.inflight
  entropy : t.entropy = s.entropy
  operands : ∀ r ∈ operandRegs s i, t.reg r = s.reg r

theorem SameInputs.refl (i : Instr) (s : State) : SameInputs i s s := ⟨rfl, rfl, rfl, fun _ _ => rfl⟩

theorem SameInputs.inflightDetb {i : Instr} {s t : State} (h : SameInputs i s t) : t.inflightDetb = s.inflightDetb := by
  rw [State.inflightDetb, h.inflight, State.inflightDetb]

/-- The effect of command i on every state with s's inputs. -/
structure EffectOf (i : Instr) (s : State) (e : Effect) : Prop where
  runs : ∀ t, SameInputs i s t → exec i t = .next (e.apply t)
  prime : ∀ ra rb k, i = .mrtest ra rb k → k ≠ 0 → e.decidesPrime = true
  noinv : ∀ rd ra rm, i = .modinv rd ra rm → e.decidesNoinv = true

/-! ### Every command has an effect -/

section
variable (rd ra rb rm : Reg) (s : State)

theorem exists_effect_modmul : ∃ e, EffectOf (.modmul rd ra rb rm) s e := by
  by_cases hm : s.reg rm % 2 = 1
  · refine ⟨.succeed (some (rd, s.reg ra * s.reg rb % s.reg rm)) none none 0, fun t h => ?_, nofun, nofun⟩
    have hrm := h.operands rm (by simp [operandRegs])
    rw [exec_modmul_odd (hrm ▸ hm), h.operands ra (by simp [operandRegs]), h.operands rb (by simp [operandRegs]), hrm]
    rfl
  · refine ⟨.fail .badModulus none none, fun t h => ?_, nofun, nofun⟩
    have hrm := h.operands rm (by simp [operandRegs])
    rw [exec_modmul_even (by omega)]
    rfl

theorem exists_effect_modexp : ∃ e, EffectOf (.modexp rd ra rb rm) s e := by
  by_cases hm : s.reg rm % 2 = 1
  · refine ⟨.succeed (some (rd, s.reg ra ^ s.reg rb % s.reg rm)) none none 0, fun t h => ?_, nofun, nofun⟩
    have hrm := h.operands rm (by simp [operandRegs])
    rw [exec_modexp_odd (hrm ▸ hm), h.operands ra (by simp [operandRegs]), h.operands rb (by simp [operandRegs]), hrm]
    rfl
  · refine ⟨.fail .badModulus none none, fun t h => ?_, nofun, nofun⟩
    have hrm := h.operands rm (by simp [operandRegs])
    rw [exec_modexp_even (by omega)]
    rfl

theorem exists_effect_crypt : ∃ e, EffectOf (.crypt rd ra rb rm) s e := by
  by_cases hm : s.reg rm % 2 = 1
  · by_cases hx : s.reg ra < s.reg rm
    · refine ⟨.succeed (some (rd, s.reg ra ^ s.reg rb % s.reg rm)) none none 0, fun t h => ?_, nofun, nofun⟩
      have hra := h.operands ra (by simp [operandRegs])
      have hrm := h.operands rm (by simp [operandRegs])
      rw [exec_crypt_inRange (hrm ▸ hm) (by omega), hra, h.operands rb (by simp [operandRegs]), hrm]
      rfl
    · refine ⟨.fail .invalidRange none none, fun t h => ?_, nofun, nofun⟩
      have hra := h.operands ra (by simp [operandRegs])
      have hrm := h.operands rm (by simp [operandRegs])
      rw [exec_crypt_outOfRange (hrm ▸ hm) (by omega)]
      rfl
  · refine ⟨.fail .badModulus none none, fun t h => ?_, nofun, nofun⟩
    have hrm := h.operands rm (by simp [operandRegs])
    rw [exec_crypt_even (by omega)]
    rfl

theorem exists_effect_modinv : ∃ e, EffectOf (.modinv rd ra rm) s e := by
  by_cases hm : s.reg rm = 0
  · refine ⟨.fail .badModulus none (some false), fun t h => ?_, nofun, fun _ _ _ _ => rfl⟩
    have hrm := h.operands rm (by simp [operandRegs])
    rw [exec_modinv_zero (hrm ▸ hm)]
    rfl
  · cases hinv : modInverse (s.reg ra) (s.reg rm) with
    | none =>
      refine ⟨.succeed none none (some true) 0, fun t h => ?_, nofun, fun _ _ _ _ => rfl⟩
      rw [exec, execModinv, h.operands rm (by simp [operandRegs]), h.operands ra (by simp [operandRegs]), if_neg hm, hinv]
      rfl
    | some v =>
      refine ⟨.succeed (some (rd, v)) none (some false) 0, fun t h => ?_, nofun, fun _ _ _ _ => rfl⟩
      rw [exec, execModinv, h.operands rm (by simp [operandRegs]), h.operands ra (by simp [operandRegs]), if_neg hm, hinv]
      rfl

end

/-! ### MRTEST -/

section
variable {ra rb : Reg} {k : BitVec 8} {s t : State}

/-- The registers the base check covers hold the bases of all rounds (R125). -/
theorem SameInputs.detBases (h : SameInputs (.mrtest ra rb k) s t) (hd : s.inflightDetb = true) (h5 : 5 ≤ s.reg ra)
    (ho : s.reg ra % 2 = 1) {m : Nat} (hm : m ≤ k.toNat) : t.detBases rb m = s.detBases rb m := by
  refine List.map_congr_left fun i hi => h.operands _ (List.mem_cons_of_mem _ ?_)
  rw [List.mem_range] at hi
  exact mem_baseRegs_iff.mpr ⟨⟨hd, h5, ho⟩, i % 8, by omega, baseReg_mod_eight rb i⟩

theorem exists_effect_mrtest_deterministic (hk : k ≠ 0) (hd : s.inflightDetb = true) (h5 : 5 ≤ s.reg ra)
    (ho : s.reg ra % 2 = 1) : ∃ e, EffectOf (.mrtest ra rb k) s e := by
  have hrun : ∀ t, SameInputs (.mrtest ra rb k) s t →
      exec (.mrtest ra rb k) t = runDeterministic (s.reg ra) rb k.toNat t ∧
      t.detBasesOk (s.reg ra) rb k.toNat = s.detBasesOk (s.reg ra) rb k.toNat := by
    intro t h
    have hra := h.operands ra (by simp [operandRegs])
    refine ⟨?_, by rw [State.detBasesOk, h.detBases hd h5 ho (by omega), State.detBasesOk]⟩
    rw [exec_mrtest_deterministic hk (h.inflightDetb.trans hd) (hra ▸ h5) (hra ▸ ho), hra]
  cases hok : s.detBasesOk (s.reg ra) rb k.toNat with
  | false =>
    refine ⟨.fail .badBase (some false) none, fun t h => ?_, fun _ _ _ _ _ => rfl, nofun⟩
    obtain ⟨he, hok'⟩ := hrun t h
    rw [he, runDeterministic_of_not_basesOk (hok'.trans hok)]
    rfl
  | true =>
    cases hr : runRounds (s.reg ra) (split (s.reg ra)).1 (split (s.reg ra)).2 k.toNat (s.detBases rb k.toNat) 0 with
    | verdict v used =>
      refine ⟨.succeed none (some v) none 0, fun t h => ?_, fun _ _ _ _ _ => rfl, nofun⟩
      obtain ⟨he, hok'⟩ := hrun t h
      rw [he, runDeterministic, if_pos (hok'.trans hok), h.detBases hd h5 ho le_rfl, hr]
      rfl
    | waiting => exact absurd hr (runRounds_detBases _ _ _ _ _ _)

theorem exists_effect_mrtest_entropy (hk : k ≠ 0) (hd : s.inflightDetb = false) (h5 : 5 ≤ s.reg ra)
    (ho : s.reg ra % 2 = 1) : ∃ e, EffectOf (.mrtest ra rb k) s e := by
  have hrun : ∀ t, SameInputs (.mrtest ra rb k) s t →
      exec (.mrtest ra rb k) t = runEntropy (s.reg ra) k.toNat t ∧
      t.entropyBases (s.reg ra) = s.entropyBases (s.reg ra) := by
    intro t h
    have hra := h.operands ra (by simp [operandRegs])
    refine ⟨?_, by rw [State.entropyBases, h.entropy, State.entropyBases]⟩
    rw [exec_mrtest_entropy hk (h.inflightDetb.trans hd) (hra ▸ h5) (hra ▸ ho), hra]
  cases hr : runRounds (s.reg ra) (split (s.reg ra)).1 (split (s.reg ra)).2 k.toNat (s.entropyBases (s.reg ra)) 0 with
  | verdict v used =>
    refine ⟨.succeed none (some v) none used, fun t h => ?_, fun _ _ _ _ _ => rfl, nofun⟩
    obtain ⟨he, hbases⟩ := hrun t h
    rw [he, runEntropy, hbases, hr]
    rfl
  | waiting =>
    refine ⟨.wait, fun t h => ?_, fun _ _ _ _ _ => rfl, nofun⟩
    obtain ⟨he, hbases⟩ := hrun t h
    rw [he, runEntropy, hbases, hr]
    rfl

theorem exists_effect_mrtest (ra rb : Reg) (k : BitVec 8) (s : State) : ∃ e, EffectOf (.mrtest ra rb k) s e := by
  by_cases hk : k = 0
  · refine ⟨.fail .illegalCmd none none, fun t h => ?_, fun _ _ _ he hne => ?_, nofun⟩
    · rw [exec, execMrtest, if_pos hk]
      rfl
    · obtain ⟨-, -, rfl⟩ := Instr.mrtest.inj he
      exact absurd hk hne
  by_cases htriv : s.reg ra ≤ 3 ∨ s.reg ra % 2 = 0
  · refine ⟨.succeed none (some (decide (s.reg ra = 2 ∨ s.reg ra = 3))) none 0, fun t h => ?_, fun _ _ _ _ _ => rfl, nofun⟩
    have hra := h.operands ra (by simp [operandRegs])
    rw [exec, execMrtest_trivial ra rb k t hk (hra ▸ htriv), hra]
    rfl
  cases hd : s.inflightDetb with
  | true => exact exists_effect_mrtest_deterministic hk hd (by omega) (by omega)
  | false => exact exists_effect_mrtest_entropy hk hd (by omega) (by omega)

end

/-- What a command does is fixed by its inputs: one effect, the same on every state that shares them. -/
theorem exists_effect (i : Instr) (s : State) : ∃ e, EffectOf i s e := by
  cases i with
  | nop => exact ⟨.succeed none none none 0, fun t _ => exec_nop t, nofun, nofun⟩
  | mov rd ra =>
    refine ⟨.succeed (some (rd, s.reg ra)) none none 0, fun t h => ?_, nofun, nofun⟩
    rw [exec_mov, h.operands ra (by simp [operandRegs])]
    rfl
  | ldi rd v => exact ⟨.succeed (some (rd, v.toNat)) none none 0, fun t _ => exec_ldi rd v t, nofun, nofun⟩
  | mullo rd ra rb =>
    refine ⟨.succeed (some (rd, s.reg ra * s.reg rb % 2 ^ s.cfg.nbits)) none none 0, fun t h => ?_, nofun, nofun⟩
    rw [exec_mullo, h.operands ra (by simp [operandRegs]), h.operands rb (by simp [operandRegs]), h.cfg]
    rfl
  | mulhi rd ra rb =>
    refine ⟨.succeed (some (rd, s.reg ra * s.reg rb / 2 ^ s.cfg.nbits)) none none 0, fun t h => ?_, nofun, nofun⟩
    rw [exec_mulhi, h.operands ra (by simp [operandRegs]), h.operands rb (by simp [operandRegs]), h.cfg]
    rfl
  | gcd rd ra rb =>
    refine ⟨.succeed (some (rd, Nat.gcd (s.reg ra) (s.reg rb))) none none 0, fun t h => ?_, nofun, nofun⟩
    rw [exec_gcd, h.operands ra (by simp [operandRegs]), h.operands rb (by simp [operandRegs])]
    rfl
  | modmul rd ra rb rm => exact exists_effect_modmul rd ra rb rm s
  | modexp rd ra rb rm => exact exists_effect_modexp rd ra rb rm s
  | crypt rd ra rb rm => exact exists_effect_crypt rd ra rb rm s
  | modinv rd ra rm => exact exists_effect_modinv rd ra rm s
  | mrtest ra rb k => exact exists_effect_mrtest ra rb k s

/-! ### The statement on the flags -/

section
variable {s u : State} (e : Effect)

theorem Effect.apply_regs (hcfg : u.cfg = s.cfg) (hregs : u.regs = s.regs) : (e.apply u).regs = (e.apply s).regs := by
  cases e with
  | succeed result =>
    cases result with
    | none => exact hregs
    | some w => simp [Effect.apply, State.setVerdicts, State.writeResult, hcfg, hregs]
  | fail => exact hregs
  | wait => exact hregs

theorem Effect.apply_inflight (h : u.inflight = s.inflight) : (e.apply u).inflight = (e.apply s).inflight := by
  cases e with
  | succeed | fail => rfl
  | wait => exact h

theorem Effect.apply_entropy (h : u.entropy = s.entropy) : (e.apply u).entropy = (e.apply s).entropy := by
  cases e with
  | succeed => exact congrArg (List.drop _) h
  | fail => exact h
  | wait => exact h

variable {e}

theorem Effect.apply_prime (h : e.decidesPrime = true) (hb : s.busy = true) (hidle : (e.apply s).busy = false) :
    (e.apply u).prime = (e.apply s).prime := by
  cases e with
  | succeed result prime =>
    obtain ⟨p, rfl⟩ := Option.isSome_iff_exists.mp h
    rfl
  | fail code prime =>
    obtain ⟨p, rfl⟩ := Option.isSome_iff_exists.mp h
    rfl
  | wait => exact absurd hb (ne_true_of_eq_false hidle)

theorem Effect.apply_noinv (h : e.decidesNoinv = true) : (e.apply u).noinv = (e.apply s).noinv := by
  cases e with
  | succeed result prime noinv =>
    obtain ⟨b, rfl⟩ := Option.isSome_iff_exists.mp h
    rfl
  | fail code prime noinv =>
    obtain ⟨b, rfl⟩ := Option.isSome_iff_exists.mp h
    rfl
  | wait => exact nomatch h

end

/-- Settles O31: the two states share the command's inputs, so one effect happens to both. -/
theorem flagsDoNotAffectCommands : Obligations.FlagsDoNotAffectCommands := by
  intro i s u a b hcfg hregs hinfl hent ha hb
  obtain ⟨e, he⟩ := exists_effect i s
  have hsame : SameInputs i s u := ⟨hcfg, hinfl, hent, fun r _ => by rw [State.reg, hregs, State.reg]⟩
  obtain rfl := Host.Outcome.next.inj ((he.runs s (.refl i s)).symm.trans ha)
  obtain rfl := Host.Outcome.next.inj ((he.runs u hsame).symm.trans hb)
  exact ⟨e.apply_regs hcfg hregs, e.apply_inflight hinfl, e.apply_entropy hent,
    fun ra rb k hi hk hbusy hidle => Effect.apply_prime (he.prime ra rb k hi hk) hbusy hidle,
    fun rd ra rm hi => Effect.apply_noinv (he.noinv rd ra rm hi)⟩

end Sys2Proof.Machine

/-! SUPPORT. What unwritten limbs can bear on (spec 10_state.md): two states that differ only there get, from a command or step that
reads no unwritten limb, outcomes that differ only there. -/

namespace Sys2Proof.Machine

/-! ### Agreement on what has been written (R23) -/

section
variable {s t : State}

/-- An operation that takes no notice of the registers keeps the agreement. -/
theorem AgreeOnWritten.map (h : AgreeOnWritten s t) (f : State → State)
    (hf : ∀ (u : State) (g : RegFile), f { u with regs := g } = { f u with regs := g }) : AgreeOnWritten (f s) (f t) := by
  obtain ⟨h1, h2⟩ := h
  obtain ⟨g, rfl⟩ : ∃ g, t = { s with regs := g } := ⟨_, h1⟩
  have hregs : (f s).regs = s.regs := by rw [hf s s.regs]
  rw [hf s g]
  exact ⟨rfl, fun r => by simpa only [State.marks, State.reg, State.limbWritten, hregs] using h2 r⟩

/-- A command that reads no unwritten limb has the same inputs in both. -/
theorem AgreeOnWritten.sameInputs (h : AgreeOnWritten s t) (hs : RegsFit s) (ht : RegsFit t) {i : Instr}
    (hr : readsUnwritten s i = false) : SameInputs i s t := by
  obtain ⟨h1, -⟩ := id h
  refine ⟨by rw [h1], by rw [h1], by rw [h1], fun r hmem => h.reg_eq hs ht ?_⟩
  simpa using List.any_eq_false.mp hr r hmem

/-- The same effect on both keeps the agreement. -/
theorem AgreeOnWritten.applyEffect (h : AgreeOnWritten s t) (e : Effect) : AgreeOnWritten (e.apply s) (e.apply t) := by
  cases e with
  | succeed result prime noinv drawn =>
    cases result with
    | none => exact h.map (Effect.apply · (.succeed none prime noinv drawn)) fun _ _ => rfl
    | some w =>
      exact (h.writeReg w.1 w.2).map (Effect.apply · (.succeed none prime noinv drawn)) fun _ _ => rfl
  | fail code prime noinv => exact h.map (Effect.apply · (.fail code prime noinv)) fun _ _ => rfl
  | wait => exact h

end

/-- Two outcomes that differ at most in unwritten limbs. -/
inductive OutcomesAgree : Host.Outcome State Fault Refusal → Host.Outcome State Fault Refusal → Prop
  | next {s t : State} (h : AgreeOnWritten s t) : OutcomesAgree (.next s) (.next t)
  | fault (r : Fault) : OutcomesAgree (.fault r) (.fault r)
  | refused (r : Refusal) : OutcomesAgree (.refused r) (.refused r)

/-- What the one outcome is says what the other is. -/
theorem OutcomesAgree.inv {o p : Host.Outcome State Fault Refusal} (h : OutcomesAgree o p) :
    (∀ s', o = .next s' → ∃ t', p = .next t' ∧ AgreeOnWritten s' t') ∧ (∀ f, o = .fault f → p = .fault f) ∧
      ∀ r, o = .refused r → p = .refused r := by
  cases h with
  | next h =>
    refine ⟨?_, fun _ he => (nomatch he), fun _ he => (nomatch he)⟩
    rintro _ ⟨⟩
    exact ⟨_, rfl, h⟩
  | fault r => exact ⟨fun _ he => (nomatch he), fun _ he => he, fun _ he => (nomatch he)⟩
  | refused r => exact ⟨fun _ he => (nomatch he), fun _ he => (nomatch he), fun _ he => he⟩

theorem exec_agree {i : Instr} {s t : State} (hs : RegsFit s) (ht : RegsFit t) (h : AgreeOnWritten s t)
    (hr : readsUnwritten s i = false) :
    ∃ s' t', exec i s = .next s' ∧ exec i t = .next t' ∧ AgreeOnWritten s' t' := by
  obtain ⟨e, he⟩ := exists_effect i s
  exact ⟨_, _, he.runs s (.refl i s), he.runs t (h.sameInputs hs ht hr), h.applyEffect e⟩

/-! ### The engine's turn -/

theorem engineStep_idle {s : State} (hn : s.inflight = none) : engineStep s = .next s := by
  simp only [engineStep, hn]

theorem engineStep_agree {s t : State} (hs : RegsFit s) (ht : RegsFit t) (h : AgreeOnWritten s t)
    (hr : engineReadsUnwritten s = false) : OutcomesAgree (engineStep s) (engineStep t) := by
  have hinfl : t.inflight = s.inflight := by
    obtain ⟨h1, -⟩ := h
    rw [h1]
  cases hf : s.inflight with
  | none =>
    rw [engineStep_idle hf, engineStep_idle (hinfl.trans hf)]
    exact .next h
  | some f =>
    cases hd : decode f.word with
    | illegal r =>
      rw [engineStep_illegal hf hd, engineStep_illegal (hinfl.trans hf) hd]
      exact .next (h.map (State.raiseError · .illegalCmd) fun _ _ => rfl)
    | instr i =>
      simp only [engineReadsUnwritten, hf, hd] at hr
      obtain ⟨s', t', hs', ht', h'⟩ := exec_agree hs ht h hr
      rw [engineStep_instr hf hd, engineStep_instr (hinfl.trans hf) hd, hs', ht']
      exact .next h'

/-! ### Host accesses -/

section
variable {s t : State}

theorem takesAccess_of_inside {addr : Nat} (hin : ¬ (addr < s.cfg.base ∨ s.cfg.base + windowBytes ≤ addr))
    (hp : s.porAsserted = false) : takesAccess s addr = true := by
  rw [not_or, not_lt, not_le] at hin
  simp [takesAccess, hp, hin]

/-- The bus port looks at the parameters and the reset input only, so the two accesses are answered alike if what they
take is. -/
theorem busAccess_agree (h : AgreeOnWritten s t) (addr bits : Nat) (e : BusResponse)
    {take take' : Nat → State × BusResponse}
    (htake : takesAccess s addr = true → goodAccess (addr - s.cfg.base) bits = true →
      AgreeOnWritten (take (addr - s.cfg.base)).1 (take' (addr - s.cfg.base)).1 ∧
        (take (addr - s.cfg.base)).2 = (take' (addr - s.cfg.base)).2) :
    OutcomesAgree (busAccess addr bits s e take) (busAccess addr bits t e take') := by
  have hcfg : t.cfg = s.cfg := by rw [h.1]
  have hpor : t.porAsserted = s.porAsserted := by rw [h.1]
  unfold busAccess
  rw [hcfg, hpor]
  by_cases hin : addr < s.cfg.base ∨ s.cfg.base + windowBytes ≤ addr
  · rw [if_pos hin, if_pos hin]
    exact .fault _
  · rw [if_neg hin, if_neg hin]
    cases hp : s.porAsserted with
    | true => exact .refused _
    | false =>
      dsimp only
      rw [if_neg Bool.false_ne_true, if_neg Bool.false_ne_true]
      cases hg : goodAccess (addr - s.cfg.base) bits with
      | false => exact .next (h.map (State.answer · e) fun _ _ => rfl)
      | true =>
        obtain ⟨hst, hans⟩ := htake (takesAccess_of_inside hin hp) hg
        rw [if_pos rfl, if_pos rfl, hans]
        exact .next (hst.map (State.answer · _) fun _ _ => rfl)

/-- A window word whose limb is written reads the same in both. -/
theorem AgreeOnWritten.windowRead_eq (h : AgreeOnWritten s t) {off : Nat}
    (hw : windowLimb off < s.cfg.nlimb → s.limbWritten (windowReg off) (windowLimb off) = true) :
    t.windowRead off = s.windowRead off := by
  obtain ⟨h1, h2⟩ := h
  have hcfg : t.cfg = s.cfg := by rw [h1]
  rw [State.windowRead, State.windowRead, hcfg]
  split
  next hn => exact (h2 _).2 _ (hw hn)
  next => rfl

theorem State.hostRead_control (s : State) {off : Nat} (ho : off < 0x1000) : s.hostRead off = (s, s.controlRead off) := by
  rw [State.hostRead, inOperandWindow, decide_eq_false (by omega), if_neg Bool.false_ne_true]

theorem State.hostWrite_window (s : State) {off : Nat} (v : Word) (ho : 0x1000 ≤ off) (hb : s.busy = false) :
    s.hostWrite off v = s.windowWrite off v := by
  rw [State.hostWrite, inOperandWindow, decide_eq_true ho, if_pos rfl, if_neg (ne_true_of_eq_false hb)]

theorem AgreeOnWritten.busy_eq (h : AgreeOnWritten s t) : t.busy = s.busy := by
  obtain ⟨h1, -⟩ := h
  rw [h1]
  rfl

/-- No control register shows the operand registers. -/
theorem AgreeOnWritten.controlRead_eq (h : AgreeOnWritten s t) (off : Nat) : t.controlRead off = s.controlRead off := by
  obtain ⟨h1, -⟩ := h
  rw [h1]
  rfl

theorem State.writeCtrl_regs (u : State) (g : RegFile) (v : Word) :
    State.writeCtrl { u with regs := g } v = { u.writeCtrl v with regs := g } := by
  unfold State.writeCtrl
  split_ifs <;> rfl

theorem State.writeCmd_regs (u : State) (g : RegFile) (w : Word) :
    State.writeCmd { u with regs := g } w = { u.writeCmd w with regs := g } := by
  cases hb : u.busy with
  | true => rw [State.writeCmd_busy u w hb, State.writeCmd_busy { u with regs := g } w hb]
  | false => rw [State.writeCmd_idle u w hb, State.writeCmd_idle { u with regs := g } w hb]; rfl

/-- No control register write looks at the operand registers. -/
theorem State.controlWrite_regs (u : State) (g : RegFile) (off : Nat) (v : Word) :
    State.controlWrite { u with regs := g } off v = { u.controlWrite off v with regs := g } := by
  unfold State.controlWrite
  split_ifs
  · exact u.writeCtrl_regs g v
  · rfl
  · exact u.writeCmd_regs g v
  · rfl

/-- A host read of no unwritten limb returns the same word in both. -/
theorem AgreeOnWritten.hostRead (h : AgreeOnWritten s t) {off : Nat} (hr : hostReadsUnwritten s off = false) :
    AgreeOnWritten (s.hostRead off).1 (t.hostRead off).1 ∧ (s.hostRead off).2 = (t.hostRead off).2 := by
  by_cases ho : 0x1000 ≤ off
  · cases hb : s.busy with
    | true =>
      rw [State.hostRead_window_busy s ho hb, State.hostRead_window_busy t ho (h.busy_eq.trans hb)]
      exact ⟨h.map (fun u => { u with busyacc := true }) fun _ _ => rfl, rfl⟩
    | false =>
      rw [State.hostRead_window s ho hb, State.hostRead_window t ho (h.busy_eq.trans hb)]
      refine ⟨h, (h.windowRead_eq fun hn => ?_).symm⟩
      by_contra hw
      rw [Bool.not_eq_true] at hw
      exact Bool.false_ne_true (hr.symm.trans ((hostReadsUnwritten_iff s off).mpr ⟨ho, hb, hn, hw⟩))
  · rw [State.hostRead_control s (by omega), State.hostRead_control t (by omega)]
    exact ⟨h, (h.controlRead_eq off).symm⟩

/-- A host write reads no limb, so it does the same in both. -/
theorem AgreeOnWritten.hostWrite (h : AgreeOnWritten s t) (off : Nat) (v : Word) :
    AgreeOnWritten (s.hostWrite off v) (t.hostWrite off v) := by
  have hcfg : t.cfg = s.cfg := by rw [h.1]
  by_cases ho : 0x1000 ≤ off
  · cases hb : s.busy with
    | true =>
      rw [State.hostWrite_window_busy s v ho hb, State.hostWrite_window_busy t v ho (h.busy_eq.trans hb)]
      exact h.map (fun u => { u with busyacc := true }) fun _ _ => rfl
    | false =>
      rw [State.hostWrite_window s v ho hb, State.hostWrite_window t v ho (h.busy_eq.trans hb), State.windowWrite,
        State.windowWrite, hcfg]
      split
      next => exact h.writeLimb _ _ v
      next => exact h
  · rw [State.hostWrite_control s v (by omega), State.hostWrite_control t v (by omega)]
    exact h.map (State.controlWrite · off v) fun u g => u.controlWrite_regs g off v

/-! ### One step -/

/-- Power-on reset gives every register the same value. -/
theorem AgreeOnWritten.powerOnReset (h : AgreeOnWritten s t) (b : Bool) :
    AgreeOnWritten (s.powerOnReset b) (t.powerOnReset b) := by
  obtain ⟨h1, -⟩ := h
  have heq : t.powerOnReset b = s.powerOnReset b := by
    rw [h1]
    rfl
  rw [heq]
  exact ⟨rfl, fun _ => ⟨rfl, fun _ _ => rfl⟩⟩

theorem AgreeOnWritten.dequeue (h : AgreeOnWritten s t) (rest : List Event) :
    AgreeOnWritten (s.dequeue rest) (t.dequeue rest) := h.map (State.dequeue · rest) fun _ _ => rfl

theorem busRead_agree (h : AgreeOnWritten s t) {addr bits : Nat}
    (hr : takesAccess s addr = true → goodAccess (addr - s.cfg.base) bits = true →
      hostReadsUnwritten s (addr - s.cfg.base) = false) :
    OutcomesAgree (busRead addr bits s) (busRead addr bits t) := by
  refine busAccess_agree h addr bits _ fun htakes hgood => ?_
  obtain ⟨hst, hword⟩ := h.hostRead (hr htakes hgood)
  exact ⟨hst, congrArg BusResponse.readData hword⟩

theorem busWrite_agree (h : AgreeOnWritten s t) (addr bits : Nat) (v : Word) :
    OutcomesAgree (busWrite addr bits v s) (busWrite addr bits v t) :=
  busAccess_agree h addr bits _ fun _ _ => ⟨h.hostWrite _ v, rfl⟩

theorem step_agree (hs : RegsFit s) (ht : RegsFit t) (h : AgreeOnWritten s t) (hr : unwrittenFault s = false) :
    OutcomesAgree (step s) (step t) := by
  have hevents : t.events = s.events := by rw [h.1]
  cases he : s.events with
  | nil =>
    rw [step_quiet he, step_quiet (hevents.trans he)]
    exact engineStep_agree hs ht h (by simpa only [unwrittenFault, he] using hr)
  | cons e rest =>
    rw [step_event he, step_event (hevents.trans he)]
    simp only [unwrittenFault, he] at hr
    cases e with
    | engine => exact engineStep_agree (s := s.dequeue rest) (t := t.dequeue rest) hs ht (h.dequeue rest) hr
    | read addr bits =>
      refine busRead_agree (h.dequeue rest) fun htakes hgood => ?_
      have hand : (takesAccess s addr && goodAccess (addr - s.cfg.base) bits) = true :=
        Bool.and_eq_true_iff.mpr ⟨htakes, hgood⟩
      exact (Bool.and_eq_false_iff.mp hr).resolve_left (ne_false_of_eq_true hand)
    | write addr bits v => exact busWrite_agree (h.dequeue rest) addr bits v
    | powerOn b => exact .next ((h.dequeue rest).powerOnReset b)

end

/-- Settles O32: a command's effect is fixed by its operands, which are written, and a step without the fault takes nothing
else from an unwritten limb. -/
theorem unwrittenValuesInvisible : Obligations.UnwrittenValuesInvisible :=
  ⟨fun _ _ _ => exec_agree, fun _ _ hs ht h hr => (step_agree hs ht h hr).inv⟩

end Sys2Proof.Machine
